-- ==== Sys2Proof/Word.lean ====
section
/-! DEFINITION. Sys2Proof/Word.lean: the word types of spec/00_scope.md rule R9 (`uN` is `BitVec N`). -/

namespace Sys2Proof

/-- A byte: u8 (R9). -/
abbrev Byte := BitVec 8

/-- A PGN as the spec types it: u32, of which bits 17:0 only are ever non-zero (R9, R11, R113). -/
abbrev Pgn := BitVec 32

/-- The number of PGN values, 2^18 (R8 `PGN width`; R27: keys are 0 to 262143). -/
def pgnCount : Nat := 0x40000

end Sys2Proof
end

