-- ==== Sys2Proof/Config.lean ====
section
/-! DEFINITION. Sys2Proof/Config.lean: the static configuration of one instance (spec/10_state.md rules R20 to
R25). Every OPEN parameter of spec/00_scope.md rule R8 is a field of `Cfg`, so a statement about every state holds
for every value of it. -/

namespace Sys2Proof

/-- `MODE`, the framing discipline (R2, R20). -/
inductive Mode where
  /-- Delimiter-bounded frames. -/
  | delim
  /-- 13-byte frames, each followed by one separator byte. -/
  | fixed
deriving DecidableEq, Repr

/-- A predicate on PGN values as plain data: the listed values, or all but the listed values. With 2^18 PGN values
either form alone gives every predicate (R24); D10's two useful instances are `allBut []` and `only []`. -/
inductive PgnPred where
  | only (members : List Nat)
  | allBut (members : List Nat)
deriving DecidableEq, Repr

/-- The five configuration values of R10. They are written at construction and never after (R25). -/
structure Cfg where
  /-- `MODE` (R20). -/
  mode : Mode
  /-- `INCLUDE`: a finite set of integers (R21). Order and repetition in the list carry no meaning. -/
  incl : List Int
  /-- `EXCLUDE`: a finite set of integers (R22). -/
  excl : List Int
  /-- `MIN_INTERVAL` in ticks (R23). -/
  minInterval : Nat
  /-- `FAST` (R24). -/
  fast : PgnPred
deriving DecidableEq, Repr

/-- The default of `MIN_INTERVAL`: the tick count of 5 seconds (R8, R23). -/
def defaultMinInterval (tickHz : Nat) : Nat := 5 * tickHz

/-- DESIGN CHOICE (log 3): the `TICK_HZ` with which `Cfg.standard` computes the default interval. R8 leaves it OPEN;
1000 is what spec/95_test_vectors.md uses. -/
def standardTickHz : Nat := 1000

/-- The configuration of `State.reset`. `INCLUDE`, `EXCLUDE` and `MIN_INTERVAL` have the defaults of R21, R22, R23;
`MODE` and `FAST` have no default in the spec and are a DESIGN CHOICE (log 3). -/
def Cfg.standard : Cfg where
  mode := .delim
  incl := []
  excl := []
  minInterval := defaultMinInterval standardTickHz
  fast := .only []

end Sys2Proof
end

