-- ==== Sys2Proof/Syntax.lean ====
section
/-! DEFINITION. Sys2Proof/Syntax.lean: the twelve operations of spec/00_scope.md rule R5, which stand for
instructions, and the selection levels of spec/30_encoding.md rule R69. The 52 rows of spec/opcode_table.json are
formats of these twelve (log 1): one constructor per mnemonic, its operands ranging over all the mnemonic's rows. -/

namespace Sys2Proof

/-- The complete operation set of R5, each with the operands its rule names. The operand `cf` of a rule is the
decoded-frame register of State (R9, R11) and is no operand here. -/
inductive Instr where
  /-- `RX(b, now)`: accept one byte with its time stamp (R176). -/
  | rx (b : Byte) (now : Nat)
  /-- `RESET` (R231). -/
  | reset
  /-- `FRM.DELIM`: cut one delimiter-bounded frame out of RXBUF (R91). -/
  | frmDelim
  /-- `FRM.FIXED`: cut one 13-byte frame out of RXBUF (R96). -/
  | frmFixed
  /-- `FRM.SKIP`: discard the separator at the front of RXBUF (R97). -/
  | frmSkip
  /-- `DEC(B)`: decode a frame body (R111). -/
  | dec (body : List Byte)
  /-- `FLT(pgn)`: the include/exclude predicate (R126). -/
  | flt (pgn : Pgn)
  /-- `THR.ACCEPT(pgn, now)`: admit or reject a new sequence (R136). -/
  | thrAccept (pgn : Pgn) (now : Nat)
  /-- `SF.EMIT(cf)`: forward a single-frame message (R180). -/
  | sfEmit
  /-- `FP.FIRST(cf, seq, now)`: a frame with frame counter 0 (R148). -/
  | fpFirst (seq : BitVec 3) (now : Nat)
  /-- `FP.NEXT(cf, seq, fc)`: a frame with frame counter 1 to 31 (R152). -/
  | fpNext (seq : BitVec 3) (fc : BitVec 5)
  /-- `FP.EMIT(p, src)`: emit the combined payload of PGN `p` and clear its entry (R156). -/
  | fpEmit (p : Pgn) (src : Byte)
deriving DecidableEq, Repr

/-- Where in the block a piece of input stands (R69, column `Level` and `Selector`). The bits alone do not select an
operation: the same byte is a stream byte, a type byte or a control byte according to the level. A level also carries
the operands that have no bit encoding (opcode_table.json, rows RX, THR.ACCEPT, FP.EMIT); a PGN among them is the
18-bit field (R113). -/
inductive Level where
  /-- The event `RX`: the next byte of the stream, at time `now`. -/
  | rx (now : Nat)
  /-- The event `RESET`. -/
  | reset
  /-- Stream level, `MODE = DELIM`. -/
  | delim
  /-- Stream level, `MODE = FIXED`. -/
  | fixed
  /-- Stream level, `MODE = FIXED` with a separator pending. -/
  | separator
  /-- Frame level: a frame body. -/
  | body
  /-- CanFrame level: the PGN the filter is asked about. -/
  | pgn
  /-- CanFrame level: an allowed frame of a PGN that is not `FAST`. -/
  | single
  /-- Control-byte level: the wire data bytes of an allowed frame of a `FAST` PGN, at time `now`. -/
  | control (now : Nat)
  /-- The throttle's call from a first frame of `pgn` at time `now`. -/
  | throttle (pgn : BitVec 18) (now : Nat)
  /-- Entry level: the entry of `p` is complete, `src` is the source of the frame being handled. -/
  | complete (p : BitVec 18) (src : Byte)
deriving DecidableEq, Repr

/-- One thing asked of the block: a level and the bits presented at it. The environment presents the two events
`RX` and `RESET` only (R175), the first with one byte or with a chunk of them (R177); the other levels let one operation
be run by itself. -/
structure Request where
  level : Level
  bytes : List Byte
deriving DecidableEq, Repr

end Sys2Proof
end

