-- ==== Sys2Proof/WellFormed.lean ====
section
/-! DEFINITION. Sys2Proof/WellFormed.lean: the checks on the operands of an operation that its rule states. -/

namespace Sys2Proof

/-- Why an operation is ill-formed. -/
inductive WfError where
  /-- `DEC` is stated for bodies of at least 5 bytes (R111). -/
  | bodyTooShort
  /-- Bits 31:18 of a PGN are always zero (R9, R11, R113). -/
  | pgnTooWide
  /-- `FP.NEXT` has frame counter 1 to 31 (R152, R68). -/
  | frameCounterZero
deriving DecidableEq, Repr

/-- The check an operation fails, if any. -/
def Instr.illFormed : Instr → Option WfError
  | .rx _ _ => none
  | .reset => none
  | .frmDelim => none
  | .frmFixed => none
  | .frmSkip => none
  | .dec body => if body.length < 5 then some .bodyTooShort else none
  | .flt pgn => if pgn.toNat < pgnCount then none else some .pgnTooWide
  | .thrAccept pgn _ => if pgn.toNat < pgnCount then none else some .pgnTooWide
  | .sfEmit => none
  | .fpFirst _ _ => none
  | .fpNext _ fc => if fc = 0 then some .frameCounterZero else none
  | .fpEmit p _ => if p.toNat < pgnCount then none else some .pgnTooWide

/-- An operation every check passes. -/
def Instr.wf (i : Instr) : Bool := i.illFormed.isNone

end Sys2Proof
end

