-- ==== Sys2Proof/Decode.lean ====
section
/-! DEFINITION. Sys2Proof/Decode.lean: the bit fields of spec/30_encoding.md, the decoder (rule R69: which operation
a piece of input selects), the encoder, and the host's `decodeTableWord`. -/

namespace Sys2Proof

/-! ## Markers and sizes (R61, R62, R92, R96) -/

/-- The DELIM start marker `0xAA` (R61). -/
def startMarker : Byte := 0xAA

/-- The DELIM end marker `0x55` (R61). -/
def endMarker : Byte := 0x55

/-- The length of a FIXED transport frame (R62, R96). -/
def fixedLength : Nat := 13

/-! ## Bit fields -/

/-- `data_length`, bits 3:0 of the type byte (R63). -/
def dataLength (typeByte : Byte) : Nat := (typeByte.extractLsb' 0 4).toNat

/-- `frame_id_int = I0 | (I1 << 8) | (I2 << 16) | (I3 << 24)` (R41, R64; 90_conflicts.md C1, reading A). -/
def frameIdInt (i0 i1 i2 i3 : Byte) : BitVec 32 :=
  i0.zeroExtend 32 ||| (i1.zeroExtend 32 <<< 8) ||| (i2.zeroExtend 32 <<< 16) ||| (i3.zeroExtend 32 <<< 24)

/-- `zext_8(frame_id_int[7:0])` (R64, R65, R114). -/
def sourceField (id : BitVec 32) : Byte := id.extractLsb' 0 8

/-- `zext_32(frame_id_int[25:8])` (R64, R65, R113). -/
def pgnField (id : BitVec 32) : Pgn := (id.extractLsb' 8 18).zeroExtend 32

/-- The sequence counter, bits 7:5 of the control byte (R66). -/
def controlSeq (ctl : Byte) : BitVec 3 := ctl.extractLsb' 5 3

/-- The frame counter, bits 4:0 of the control byte (R66). -/
def controlFc (ctl : Byte) : BitVec 5 := ctl.extractLsb' 0 5

/-- The control byte `qqqfffff` with the given counters (R66). -/
def controlByte (seq : BitVec 3) (fc : BitVec 5) : Byte := seq ++ fc

/-! ## The decoder -/

/-- Why a piece of input selects no operation at its level. What the block then does is `Machine.passOver`. -/
inductive DecodeError where
  /-- A chunk of no bytes is no `RX` event at all (R177). -/
  | noByte
  /-- The separator has not arrived (R69: `SKIP` true and a byte arrives; R96). -/
  | noSeparator
  /-- The body of the candidate `AA 55`, of fewer than 3 bytes (R92, R93). -/
  | noBody
  /-- The body of a candidate of 3 to 6 bytes (R92, R93); DEC has bodies of at least 5 bytes (R111). -/
  | bodyTooShort
  /-- A fast-packet frame with no data has no control byte (R69, R146). -/
  | noControlByte
  /-- The throttle is consulted for frame counter 0 only (R135). -/
  | notAFirstFrame
deriving DecidableEq, Repr

/-- What the decoder answers. -/
inductive Decoded where
  | ok (i : Instr)
  | error (e : DecodeError)
deriving DecidableEq, Repr

/-- An 18-bit PGN as the u32 that the registers hold (R65, R113). -/
def pgnOfField (p : BitVec 18) : Pgn := p.zeroExtend 32

/-- The PGN presented in bytes, most significant first: the 18 bits of row FLT, bit 17 leftmost. Bits above them are no
part of the row. -/
def pgnOfBytes (bytes : List Byte) : BitVec 18 := bytes.foldl (fun p b => (p <<< 8) ||| b.zeroExtend 18) 0

/-- Decoding of one control byte: `qqq00000` is a first frame, every other value a later frame (R66, R69, R146). -/
def decodeControl (ctl : Byte) (now : Nat) : Instr :=
  if controlFc ctl = 0 then .fpFirst (controlSeq ctl) now else .fpNext (controlSeq ctl) (controlFc ctl)

/-- The operation that `bytes`, in wire order, select at `level` (R69). It is total: what selects no operation is
answered by name. Of a chunk the first byte is the event (R177). The two framer operations are selected by MODE alone,
whatever RXBUF holds (R176); the separator byte is not looked at (R97); RESET, SF.EMIT and FP.EMIT are rows of no bits,
which any bits match. -/
def decode (level : Level) (bytes : List Byte) : Decoded :=
  match level with
  | .rx now => match bytes with
    | [] => .error .noByte
    | b :: _ => .ok (.rx b now)
  | .reset => .ok .reset
  | .delim => .ok .frmDelim
  | .fixed => .ok .frmFixed
  | .separator => if bytes = [] then .error .noSeparator else .ok .frmSkip
  | .body =>
    if bytes = [] then .error .noBody
    else if bytes.length < 5 then .error .bodyTooShort
    else .ok (.dec bytes)
  | .pgn => .ok (.flt (pgnOfField (pgnOfBytes bytes)))
  | .single => .ok .sfEmit
  | .control now => match bytes with
    | [] => .error .noControlByte
    | ctl :: _ => .ok (decodeControl ctl now)
  | .throttle pgn now => match bytes with
    | [] => .error .noControlByte
    | ctl :: _ => if controlFc ctl = 0 then .ok (.thrAccept (pgnOfField pgn) now) else .error .notAFirstFrame
  | .complete p src => .ok (.fpEmit (pgnOfField p) src)

/-! ## The encoder -/

/-- The level at which an operation is selected, with its operands that have no bit encoding (R69). -/
def levelOf : Instr → Level
  | .rx _ now => .rx now
  | .reset => .reset
  | .frmDelim => .delim
  | .frmFixed => .fixed
  | .frmSkip => .separator
  | .dec _ => .body
  | .flt _ => .pgn
  | .thrAccept pgn now => .throttle (pgn.extractLsb' 0 18) now
  | .sfEmit => .single
  | .fpFirst _ now => .control now
  | .fpNext _ _ => .control 0
  | .fpEmit p src => .complete (p.extractLsb' 0 18) src

/-- The bits of an operation, in wire order. A framer operation has no operand of its own: it is shown by the
shortest frame of its first row (fields 0), the separator by a zero byte; the fields of a frame are encoded by
`Wire.delim` and `Wire.fixed`. The sequence counter of the throttle's control byte is no operand of THR.ACCEPT and is
written 0. -/
def encode : Instr → List Byte
  | .rx b _ => [b]
  | .reset => []
  | .frmDelim => [startMarker, 0, 0, 0, 0, 0, endMarker]
  | .frmFixed => List.replicate fixedLength 0
  | .frmSkip => [0]
  | .dec body => body
  | .flt pgn => [pgn.extractLsb' 16 8, pgn.extractLsb' 8 8, pgn.extractLsb' 0 8]
  | .thrAccept _ _ => [controlByte 0 0]
  | .sfEmit => []
  | .fpFirst seq _ => [controlByte seq 0]
  | .fpNext seq fc => [controlByte seq fc]
  | .fpEmit _ _ => []

/-! ## Physical frames on the wire (R60 to R68) -/

/-- A physical frame with every bit of its encoding: the fields, and the bits no rule reads (R71). -/
structure Wire where
  /-- Type byte bits 7:4, ignored (R63). -/
  typeHigh : BitVec 4
  /-- Frame id bits 31:26, ignored (R64). -/
  idHigh : BitVec 6
  /-- Frame id bits 25:8 (R64). -/
  pgn : BitVec 18
  /-- Frame id bits 7:0 (R64). -/
  source : Byte
  /-- The data bytes in wire order, 0 to 8 of them (R60). -/
  data : List Byte
deriving DecidableEq, Repr

/-- The type byte `xxxxnnnn` (R63). -/
def Wire.typeByte (f : Wire) : Byte := f.typeHigh ++ BitVec.ofNat 4 f.data.length

/-- The frame id as one number, bit 31 leftmost (R64; row DEC, 32 bits). -/
def Wire.frameId (f : Wire) : BitVec 32 := f.idHigh ++ f.pgn ++ f.source

/-- The frame body: type byte, frame id least significant byte first, data (R60). -/
def Wire.body (f : Wire) : List Byte :=
  f.typeByte :: f.frameId.extractLsb' 0 8 :: f.frameId.extractLsb' 8 8 :: f.frameId.extractLsb' 16 8 ::
    f.frameId.extractLsb' 24 8 :: f.data

/-- The DELIM transport frame, with `trailing` bytes between the data and the end marker (R61). -/
def Wire.delim (f : Wire) (trailing : List Byte) : List Byte :=
  startMarker :: (f.body ++ trailing) ++ [endMarker]

/-- The FIXED transport frame, with `padding` after the data (R62: `8 - n` bytes of any value). -/
def Wire.fixed (f : Wire) (padding : List Byte) : List Byte := f.body ++ padding

/-- The wire data of a first frame: control byte with `fc = 0`, payload length, up to 6 payload bytes (R67). -/
def firstFrameData (seq : BitVec 3) (plen : Byte) (payload : List Byte) : List Byte :=
  controlByte seq 0 :: plen :: payload

/-- The wire data of a later frame: control byte, up to 7 payload bytes (R68). -/
def laterFrameData (seq : BitVec 3) (fc : BitVec 5) (payload : List Byte) : List Byte :=
  controlByte seq fc :: payload

/-! ## The rows of spec/opcode_table.json -/

/-- A table row's bits as bytes in wire order. The table writes a row as ONE word of `nbits` bits with its first wire
byte leftmost (row FRM.DELIM: `match` 0xAA...55), so the first wire byte is the most significant (log 2). -/
def bytesOfWord (n : Nat) (w : Nat) : List Byte :=
  (List.range n).map fun i => BitVec.ofNat 8 (w >>> (8 * (n - 1 - i)))

/-- Do these bytes spell a whole DELIM frame of one of the nine rows: markers, `L = 7 + n`, no `0x55` inside? -/
def isDelimRow (bytes : List Byte) : Bool :=
  bytes.head? == some startMarker && bytes.getLast? == some endMarker &&
    (bytes.drop 1).dropLast.all (· != endMarker) &&
    decide (dataLength (bytes.getD 1 0) ≤ 8) && bytes.length == 7 + dataLength (bytes.getD 1 0)

/-- The level at which the host's words are read, since a bare word names none (log 2): no bits are the event
RESET; a whole DELIM frame is a DELIM stream; 13 other bytes are a FIXED stream; 1 to 8 other bytes are the wire data
of a fast-packet frame, the one level at which the value of a byte selects among operations. -/
def tableLevel (bytes : List Byte) : Option Level :=
  if bytes = [] then some .reset
  else if isDelimRow bytes then some .delim
  else if bytes.length = fixedLength then some .fixed
  else if bytes.length ≤ 8 then some (.control 0)
  else none

/-- The host's question: the operation read from a table row's word. -/
def decodeTableWord (nbits w : Nat) : Option Instr :=
  match tableLevel (bytesOfWord (nbits / 8) w) with
  | none => none
  | some l => match decode l (bytesOfWord (nbits / 8) w) with
    | .ok i => some i
    | .error _ => none

end Sys2Proof
end

