-- ==== Sys2Proof/Machine/State.lean ====
section
/-! DEFINITION. Sys2Proof/Machine/State.lean: the state of one instance (spec/10_state.md rules R10 to R33) as plain
data, the reasons a step can stop, and the state after reset. -/

namespace Sys2Proof.Machine

/-- A keyed table: (key, value) pairs with strictly rising keys; an unlisted key is `none` (R27, R29, R40). The
canonical form is `Table.wf` in Machine/Ops.lean. -/
abbrev Table (α : Type) := List (Nat × α)

/-- The drop codes of R196. -/
inductive DropCode where
  | xRunt | xShort | xDlen | xFpNostart | xFpSeq | xFpDup | xFpEmpty | xFpNolen | nFiltered | nThrottled
deriving DecidableEq, Repr

/-- The decoded-frame registers (R11). -/
structure CanFrame where
  /-- `cf.pgn`, u32 with bits 31:18 zero. -/
  pgn : Pgn
  /-- `cf.source`, u8. -/
  source : Byte
  /-- `cf.data`, 0 to 8 bytes, reversed from wire order. -/
  data : List Byte
deriving DecidableEq, Repr

/-- DESIGN CHOICE (log 4): what the decoded-frame registers hold while no frame is being handled. R33: `no value`. -/
def CanFrame.atRest : CanFrame := { pgn := 0, source := 0, data := [] }

/-- A reassembly entry (R27). -/
structure FastPacketState where
  /-- `sequence_counter`, u3. -/
  seq : BitVec 3
  /-- `payload_length`, u8. -/
  plen : BitVec 8
  /-- `bytes_stored`, u32. -/
  stored : BitVec 32
  /-- Frame counter (0 to 31) to chunk. -/
  frames : Table (List Byte)
deriving DecidableEq, Repr

/-- A record of OUT: `EMIT(pgn: u32, source: u8, payload)` (R30, R175). -/
structure OutRecord where
  pgn : Pgn
  source : Byte
  payload : List Byte
deriving DecidableEq, Repr

/-- A record of DIAG: `(code, pgn or none)` (R30, R196). -/
structure DiagRecord where
  code : DropCode
  pgn : Option Pgn
deriving DecidableEq, Repr

/-- The result of an operation that has one (R90, R111, R126, R136). MODEL's own (log 5): no meaning reads it. -/
inductive Ret where
  /-- No operation has answered yet. -/
  | nothing
  /-- The framer: no complete frame is buffered. -/
  | needMoreData
  /-- The framer or the decoder: the frame was dropped. -/
  | dropped (code : DropCode)
  /-- The framer: a frame with this body. -/
  | frame (body : List Byte)
  /-- The decoder: the frame is in the decoded-frame registers. -/
  | decoded
  /-- The filter and the throttle: a Boolean. -/
  | verdict (b : Bool)
deriving DecidableEq, Repr

/-- The state of one instance. `cfg` to `diag` are the tuple of R10 and no more; `cf` is R11's transient record;
`ret` and `input` are the MODEL's own (logs 5 and 6). -/
structure State where
  /-- `MODE`, `INCLUDE`, `EXCLUDE`, `MIN_INTERVAL`, `FAST`. -/
  cfg : Cfg
  /-- `RXBUF`, oldest byte first (R26). -/
  rxbuf : List Byte
  /-- `SKIP` (R13). -/
  skip : Bool
  /-- `FPT`: PGN to reassembly entry (R27). -/
  fpt : Table FastPacketState
  /-- `THR`: PGN to the time of the last acceptance (R29). -/
  thr : Table Nat
  /-- `OUT`, oldest record first (R30). -/
  out : List OutRecord
  /-- `DIAG`, oldest record first (R30). -/
  diag : List DiagRecord
  /-- `cf.pgn`, `cf.source`, `cf.data` (R11). -/
  cf : CanFrame
  /-- MODEL's own: the result of the last operation with one that was run by itself. -/
  ret : Ret
  /-- MODEL's own: what the environment will ask next, soonest first (R175). -/
  input : List Request
deriving DecidableEq, Repr

/-- Why the machine stops. No event of the interface (R175) reaches any of these: the block `never panics` (R195). All
are safe: the machine stops where the spec gives the operation no effect. -/
inductive Fault where
  /-- Raised by FRM.DELIM and FRM.FIXED run by themselves under the other MODE: the formats are `never mixed in one
  instance` (R60, R69). Safe. -/
  | wrongMode
  /-- Raised by FRM.SKIP run outside its precondition `SKIP is true and len(RXBUF) >= 1` (R97). Safe. -/
  | noSeparatorPending
  /-- Raised by DEC on an empty body, which has no `B[0]` (R111: `len(B) >= 5`). Safe. -/
  | emptyBody
  /-- Raised by FP.EMIT run when there is no entry with `stored >= plen` (R156). Safe. -/
  | notComplete
deriving DecidableEq, Repr

/-- Why a step gives no meaning. The step itself refuses nothing (R175: the block never refuses an input event). -/
inductive Refusal where
  /-- Raised by exec's arm of an instruction without a meaning. Safe. No arm raises it. -/
  | notModelled (mnemonic : String)
deriving DecidableEq, Repr

/-- The state after construction with a given configuration (R33, R232). -/
def State.construct (cfg : Cfg) : State where
  cfg := cfg
  rxbuf := []
  skip := false
  fpt := []
  thr := []
  out := []
  diag := []
  cf := .atRest
  ret := .nothing
  input := []

/-- The state right after reset (R33). RESET leaves the configuration as it is, so a configuration must be named: it
is `Cfg.standard` (log 3). -/
def State.reset : State := State.construct Cfg.standard

end Sys2Proof.Machine
end

