-- ==== Sys2Proof/Machine/Ops.lean ====
section
/-! DEFINITION. Sys2Proof/Machine/Ops.lean: the operations on the storage spaces (spec/20_memory.md rule R40), on the
two output streams, and the one operation that drops a frame (spec/60_exceptions.md rules R195, R210). -/

namespace Sys2Proof.Machine

/-! ## Keyed tables -/

/-- The canonical form: strictly rising keys, so that equal tables are equal lists. -/
abbrev Table.wf {α : Type} (t : Table α) : Prop := (t.map Prod.fst).Pairwise (· < ·)

/-- The value under a key; `none` when unlisted. -/
def Table.get {α : Type} : Table α → Nat → Option α
  | [], _ => none
  | (j, v) :: t, k => if k = j then some v else Table.get t k

/-- `T[k] <- some v`, keeping the keys rising. -/
def Table.set {α : Type} : Table α → Nat → α → Table α
  | [], k, v => [(k, v)]
  | (j, w) :: t, k, v =>
    if k < j then (k, v) :: (j, w) :: t
    else if k = j then (k, v) :: t
    else (j, w) :: Table.set t k v

/-- `T[k] <- none`. -/
def Table.erase {α : Type} (t : Table α) (k : Nat) : Table α := t.filter fun x => x.1 != k

/-- All three storage spaces are in canonical form (RXBUF, a sequence, always is). -/
abbrev Memory.wf (s : State) : Prop :=
  s.fpt.wf ∧ s.thr.wf ∧ ∀ x ∈ s.fpt, x.2.frames.wf

/-! ## RXBUF (R26) -/

/-- `RXBUF <- RXBUF ++ bytes`. -/
def State.pushBytes (s : State) (bytes : List Byte) : State := { s with rxbuf := s.rxbuf ++ bytes }

/-- `RXBUF <- buf`. -/
def State.setRxbuf (s : State) (buf : List Byte) : State := { s with rxbuf := buf }

/-! ## FPT (R27) and THR (R29), keyed by the PGN alone (R147) -/

/-- `FPT[p]`. -/
def State.fptGet (s : State) (p : Pgn) : Option FastPacketState := s.fpt.get p.toNat

/-- `FPT[p] <- some e`. -/
def State.fptSet (s : State) (p : Pgn) (e : FastPacketState) : State := { s with fpt := s.fpt.set p.toNat e }

/-- `FPT[p] <- none`. -/
def State.fptClear (s : State) (p : Pgn) : State := { s with fpt := s.fpt.erase p.toNat }

/-- `THR[p]`. -/
def State.thrGet (s : State) (p : Pgn) : Option Nat := s.thr.get p.toNat

/-- `THR[p] <- some now`. -/
def State.thrSet (s : State) (p : Pgn) (now : Nat) : State := { s with thr := s.thr.set p.toNat now }

/-! ## The decoded-frame registers (R11) -/

/-- DEC writes the registers. -/
def State.setCf (s : State) (cf : CanFrame) : State := { s with cf := cf }

/-- The handling of the frame is over: a CanFrame does not survive it (R11). -/
def State.clearCf (s : State) : State := { s with cf := .atRest }

/-! ## Outputs (R30) -/

/-- `emit EMIT(p, src, payload)`. -/
def State.emit (s : State) (p : Pgn) (src : Byte) (payload : List Byte) : State :=
  { s with out := s.out ++ [{ pgn := p, source := src, payload := payload }] }

/-- The code numbers of R196. -/
def DropCode.number : DropCode → Nat
  | .xRunt => 1
  | .xShort => 2
  | .xDlen => 3
  | .xFpNostart => 4
  | .xFpSeq => 5
  | .xFpDup => 6
  | .xFpEmpty => 7
  | .xFpNolen => 8
  | .nFiltered => 16
  | .nThrottled => 17

/-- Does the source log this drop (R196 column `Log`, R198)? -/
def DropCode.logged : DropCode → Bool
  | .xRunt | .xShort | .xDlen => true
  | .xFpNostart | .xFpSeq | .xFpDup | .xFpEmpty | .xFpNolen | .nFiltered | .nThrottled => false

/-- The log the source writes: the DIAG records with codes 1, 2 and 3 (R198). -/
def State.sourceLog (s : State) : List DiagRecord := s.diag.filter fun r => r.code.logged

/-- `drop X_NAME(info)`: what stands for taking an exception. One DIAG record is appended and nothing else changes:
nothing is saved, no control is transferred (R195, R210); the caller goes on with the next bytes, so there is no
return operation (R211). -/
def State.dropFrame (s : State) (code : DropCode) (info : Option Pgn) : State :=
  { s with diag := s.diag ++ [{ code := code, pgn := info }] }

/-! ## Answers -/

/-- An operation with a result (R90, R111, R126, R136), run by itself, ends in a next state that holds it. -/
def answer (r : Ret) (s : State) : Host.Outcome State Fault Refusal := .next { s with ret := r }

end Sys2Proof.Machine
end

