-- ==== Sys2Proof/Machine/Operands.lean ====
section
/-! DEFINITION. Sys2Proof/Machine/Operands.lean: how an operation's operands are assembled from the frame body, the
decoded-frame registers and the configuration (spec/30_encoding.md rules R65 to R68). -/

namespace Sys2Proof.Machine

/-- Membership of a PGN in a configured set of integers: the whole value is compared (R126 corner case 5). -/
def pgnIn (pgn : Pgn) (set : List Int) : Bool := decide ((pgn.toNat : Int) ∈ set)

/-- `FAST(pgn)` (R24). -/
def isFast (pred : PgnPred) (pgn : Pgn) : Bool :=
  match pred with
  | .only members => decide (pgn.toNat ∈ members)
  | .allBut members => !decide (pgn.toNat ∈ members)

/-- `rev(B[5..5+n))` (R42, R65). -/
def bodyData (body : List Byte) (n : Nat) : List Byte := ((body.drop 5).take n).reverse

/-- `frame_id_int` of a body (R41, R111). -/
def bodyFrameId (body : List Byte) : BitVec 32 :=
  frameIdInt (body.getD 1 0) (body.getD 2 0) (body.getD 3 0) (body.getD 4 0)

/-- `last(cf.data)`, the control byte (R66); `none` for a frame with no data (R146). -/
def controlOf (data : List Byte) : Option Byte := data.getLast?

/-- `cf.data[n-2]`, the payload length of a first frame (R67); read only when `n >= 2`. -/
def firstPlen (data : List Byte) : Byte := data.getD (data.length - 2) 0

/-- `cf.data[0..n-2)`: all of data except its last two bytes (R67, R148). -/
def firstChunk (data : List Byte) : List Byte := data.take (data.length - 2)

/-- `cf.data[0..n-1)`: all of data except its last byte (R68, R152). -/
def nextChunk (data : List Byte) : List Byte := data.take (data.length - 1)

/-- The chunks present, concatenated for `k` from 0 to 31 ascending (R156). -/
def combinedChunks (frames : Table (List Byte)) : List Byte :=
  (List.range 32).flatMap fun k => (frames.get k).getD []

/-- `take(plen, combined)` (R156, R157). -/
def payloadOf (e : FastPacketState) : List Byte := (combinedChunks e.frames).take e.plen.toNat

/-- Where the bits of a request stand: a framer operation reads RXBUF, a fast-packet operation the wire data of the
decoded-frame registers (`last(cf.data)` is the first wire byte, R43, R66); every other request carries its bits. -/
def fetchBytes (r : Request) (s : State) : List Byte :=
  match r.level with
  | .delim | .fixed | .separator => s.rxbuf
  | .control _ | .throttle _ _ => s.cf.data.reverse
  | .rx _ | .reset | .body | .pgn | .single | .complete _ _ => r.bytes

/-- What a request leaves to be asked: of a chunk, the bytes behind its first one (R177: one RX for each byte, in
order); of every other request, nothing. -/
def remaining (r : Request) : List Request :=
  match r.level with
  | .rx now => match r.bytes with
    | _ :: b :: bytes => [⟨.rx now, b :: bytes⟩]
    | _ => []
  | _ => []

/-- The request at the head of the input, with the operation its bits select, and the state in which it has been
taken. -/
def fetch (s : State) : Option (Decoded × State) :=
  match s.input with
  | [] => none
  | r :: rest => some (decode r.level (fetchBytes r s), { s with input := remaining r ++ rest })

/-- What the block does with a piece of input that selects no operation: the drop that the spec gives it, or nothing.
No byte, no event (R177, R181); no separator yet, the block waits (R96); a body that the length check never lets
through, its drop (R92, R99); a fast-packet frame with no data, X_FP_EMPTY (R69, R146); a later frame, the throttle is
not consulted (R135). -/
def passOver (e : DecodeError) (s : State) : State :=
  match e with
  | .noByte | .noSeparator | .notAFirstFrame => s
  | .noBody => s.dropFrame .xRunt none
  | .bodyTooShort => s.dropFrame .xShort none
  | .noControlByte => s.dropFrame .xFpEmpty (some s.cf.pgn)

end Sys2Proof.Machine
end

