-- ==== Sys2Proof/Machine/Flags.lean ====
section
/-! DEFINITION. Sys2Proof/Machine/Flags.lean: the block's one flag, SKIP, and the tests whose outcome is used at once
and stored nowhere (spec/10_state.md rule R13). -/

namespace Sys2Proof.Machine

/-- `SKIP <- b` (R13). -/
def State.setSkip (s : State) (b : Bool) : State := { s with skip := b }

/-- Is a separator pending and there to be discarded (R96 first line, R97 precondition)? -/
def State.separatorReady (s : State) : Bool := s.skip && decide (1 ≤ s.rxbuf.length)

/-- The completion test `stored >= plen` (R148, R152, R159): bytes are counted, not frames. -/
def completeEntry (e : FastPacketState) : Bool := decide (e.plen.toNat ≤ e.stored.toNat)

/-- The interval test `(now - t) >= MIN_INTERVAL`, the difference taken in the integers (R136, R138). -/
def intervalElapsed (now t minInterval : Nat) : Bool := decide ((minInterval : Int) ≤ (now : Int) - (t : Int))

/-- The duplicate test `e.frames[fc] != none` (R152 step 3c). -/
def chunkPresent (e : FastPacketState) (fc : BitVec 5) : Bool := (e.frames.get fc.toNat).isSome

end Sys2Proof.Machine
end

