-- ==== Sys2Proof/Machine/Decoder.lean ====
section
/-! DEFINITION. Sys2Proof/Machine/Decoder.lean: the Frame Decoder, DEC (spec/41_decoder.md). -/

namespace Sys2Proof.Machine

/-- The result of DEC: a CanFrame, or the frame is dropped (R111). -/
inductive DecResult where
  | ok (cf : CanFrame)
  | dropped (code : DropCode)
deriving DecidableEq, Repr

/-- DEC as the pure function of the body that R110 says it is (R111, R112). -/
def decodeBody (body : List Byte) : DecResult :=
  if 8 < dataLength (body.getD 0 0) then .dropped .xDlen
  else if body.length < 5 + dataLength (body.getD 0 0) then .dropped .xShort
  else .ok {
    pgn := pgnField (bodyFrameId body)
    source := sourceField (bodyFrameId body)
    data := bodyData body (dataLength (body.getD 0 0)) }

/-- DEC on the state: the registers are written, or one DIAG record is appended (R110). -/
def runDec (body : List Byte) (s : State) : DecResult × State :=
  match decodeBody body with
  | .dropped code => (.dropped code, s.dropFrame code none)
  | .ok cf => (.ok cf, s.setCf cf)

/-- The result as an answer. -/
def retOfDec : DecResult → Ret
  | .ok _ => .decoded
  | .dropped code => .dropped code

/-- DEC by itself. -/
def execDec (body : List Byte) (s : State) : Host.Outcome State Fault Refusal :=
  if body = [] then .fault .emptyBody else answer (retOfDec (runDec body s).1) (runDec body s).2

end Sys2Proof.Machine
end

