-- ==== Sys2Proof/Machine/Filter.lean ====
section
/-! DEFINITION. Sys2Proof/Machine/Filter.lean: the PGN Filter, FLT (spec/42_filter.md). -/

namespace Sys2Proof.Machine

/-- FLT (R126). -/
def allowed (cfg : Cfg) (pgn : Pgn) : Bool :=
  if cfg.incl ≠ [] then pgnIn pgn cfg.incl
  else if cfg.excl ≠ [] then !pgnIn pgn cfg.excl
  else true

/-- FLT by itself: pure, it answers its verdict. -/
def execFlt (pgn : Pgn) (s : State) : Host.Outcome State Fault Refusal := answer (.verdict (allowed s.cfg pgn)) s

end Sys2Proof.Machine
end

