-- ==== Sys2Proof/Machine/Framer.lean ====
section
/-! DEFINITION. Sys2Proof/Machine/Framer.lean: the Transport Framer, FRM.DELIM, FRM.FIXED and FRM.SKIP
(spec/40_framer.md). -/

namespace Sys2Proof.Machine

/-- The three results of a framer operation (R90). -/
inductive FrmResult where
  | frame (body : List Byte)
  | dropped (code : DropCode)
  | needMoreData
deriving DecidableEq, Repr

/-- The result as an answer. -/
def retOfFrm : FrmResult → Ret
  | .frame body => .frame body
  | .dropped code => .dropped code
  | .needMoreData => .needMoreData

/-- R91's cut: the candidate from the first `0xAA` through the next `0x55`, if both are there, and what stays in
RXBUF. Bytes in front of the first `0xAA` are discarded at once. -/
def cutDelim (buf : List Byte) : Option (List Byte) × List Byte :=
  let fromStart := buf.dropWhile (· != startMarker)
  let head := fromStart.takeWhile (· != endMarker)
  match fromStart.drop head.length with
  | [] => (none, fromStart)
  | e :: rest => (some (head ++ [e]), rest)

/-- The DELIM length check, in the order of R92; a candidate that passes has its two markers taken off (R93). -/
def delimCheck (w : List Byte) : FrmResult :=
  if w.length < 3 then .dropped .xRunt
  else if w.length < 7 then .dropped .xShort
  else if 8 < dataLength (w.getD 1 0) then .dropped .xDlen
  else if w.length < 7 + dataLength (w.getD 1 0) then .dropped .xShort
  else .frame (w.drop 1).dropLast

/-- FRM.DELIM (R91, R92). -/
def runDelim (s : State) : FrmResult × State :=
  match cutDelim s.rxbuf with
  | (none, rest) => (.needMoreData, s.setRxbuf rest)
  | (some w, rest) =>
    match delimCheck w with
    | .dropped code => (.dropped code, (s.setRxbuf rest).dropFrame code none)
    | r => (r, s.setRxbuf rest)

/-- FRM.SKIP (R97): the first byte goes, whatever its value. -/
def runSkip (s : State) : State := (s.setRxbuf (s.rxbuf.drop 1)).setSkip false

/-- `FRM.SKIP` where R96 calls it: a separator is pending and a byte is there. -/
def skipIfReady (s : State) : State := if s.separatorReady then runSkip s else s

/-- R96 from its third line on, SKIP being false. -/
def cutFixed (s : State) : FrmResult × State :=
  if s.rxbuf.length < fixedLength then (.needMoreData, s)
  else (.frame (s.rxbuf.take fixedLength),
    skipIfReady ((s.setRxbuf (s.rxbuf.drop fixedLength)).setSkip true))

/-- FRM.FIXED (R96). -/
def runFixed (s : State) : FrmResult × State :=
  if (skipIfReady s).skip then (.needMoreData, skipIfReady s) else cutFixed (skipIfReady s)

/-- The framer operation for the configured MODE (R176). -/
def runFramer (s : State) : FrmResult × State :=
  match s.cfg.mode with
  | .delim => runDelim s
  | .fixed => runFixed s

/-- FRM.DELIM by itself. -/
def execFrmDelim (s : State) : Host.Outcome State Fault Refusal :=
  if s.cfg.mode = .delim then answer (retOfFrm (runDelim s).1) (runDelim s).2 else .fault .wrongMode

/-- FRM.FIXED by itself. -/
def execFrmFixed (s : State) : Host.Outcome State Fault Refusal :=
  if s.cfg.mode = .fixed then answer (retOfFrm (runFixed s).1) (runFixed s).2 else .fault .wrongMode

/-- FRM.SKIP by itself, under its precondition (R97). -/
def execFrmSkip (s : State) : Host.Outcome State Fault Refusal :=
  if s.separatorReady then .next (runSkip s) else .fault .noSeparatorPending

end Sys2Proof.Machine
end

