-- ==== Sys2Proof/Machine/Throttle.lean ====
section
/-! DEFINITION. Sys2Proof/Machine/Throttle.lean: the Throttle Gate, THR.ACCEPT (spec/43_throttle.md). -/

namespace Sys2Proof.Machine

/-- The verdict of THR.ACCEPT (R136). -/
def thrVerdict (pgn : Pgn) (now : Nat) (s : State) : Bool :=
  match s.thrGet pgn with
  | none => true
  | some t => intervalElapsed now t s.cfg.minInterval

/-- THR.ACCEPT (R136): an acceptance records `now`, a rejection records nothing. -/
def runThrAccept (pgn : Pgn) (now : Nat) (s : State) : Bool × State :=
  if thrVerdict pgn now s then (true, s.thrSet pgn now) else (false, s)

/-- THR.ACCEPT by itself. -/
def execThrAccept (pgn : Pgn) (now : Nat) (s : State) : Host.Outcome State Fault Refusal :=
  answer (.verdict (runThrAccept pgn now s).1) (runThrAccept pgn now s).2

end Sys2Proof.Machine
end

