-- ==== Sys2Proof/Machine/Reassembler.lean ====
section
/-! DEFINITION. Sys2Proof/Machine/Reassembler.lean: the Fast-Packet Reassembler, FP.FIRST, FP.NEXT and FP.EMIT
(spec/44_reassembler.md). `cf` is the decoded-frame register of the state. -/

namespace Sys2Proof.Machine

/-- FP.EMIT (R156): the entry is removed and its payload appended to OUT. It is called directly after a store, so the
entry is there; without one nothing happens. -/
def runFpEmit (p : Pgn) (src : Byte) (s : State) : State :=
  match s.fptGet p with
  | none => s
  | some e => (s.fptClear p).emit p src (payloadOf e)

/-- The store that ends FP.FIRST and FP.NEXT: `FPT[p] <- some(e)`, then FP.EMIT if `stored >= plen` (R148, R152). -/
def storeEntry (p : Pgn) (src : Byte) (e : FastPacketState) (s : State) : State :=
  if completeEntry e then runFpEmit p src (s.fptSet p e) else s.fptSet p e

/-- The entry an admitted first frame creates (R148 steps 2b and 2c). -/
def firstEntry (seq : BitVec 3) (data : List Byte) : FastPacketState where
  seq := seq
  plen := firstPlen data
  stored := BitVec.ofNat 32 (firstChunk data).length
  frames := [(0, firstChunk data)]

/-- FP.FIRST (R148, R149). It supersedes whatever entry the PGN has (R150). -/
def runFpFirst (seq : BitVec 3) (now : Nat) (s : State) : State :=
  if s.cf.data.length < 2 then s.dropFrame .xFpNolen (some s.cf.pgn)
  else
    match runThrAccept s.cf.pgn now s with
    | (false, t) => t.dropFrame .nThrottled (some s.cf.pgn)
    | (true, t) => storeEntry s.cf.pgn s.cf.source (firstEntry seq s.cf.data) t

/-- The entry with the chunk of a later frame added (R152 step 3d). -/
def addChunk (e : FastPacketState) (fc : BitVec 5) (chunk : List Byte) : FastPacketState :=
  { e with frames := e.frames.set fc.toNat chunk, stored := e.stored + BitVec.ofNat 32 chunk.length }

/-- FP.NEXT (R152), its three drops tested in order. -/
def runFpNext (seq : BitVec 3) (fc : BitVec 5) (s : State) : State :=
  match s.fptGet s.cf.pgn with
  | none => s.dropFrame .xFpNostart (some s.cf.pgn)
  | some e =>
    if seq ≠ e.seq then s.dropFrame .xFpSeq (some s.cf.pgn)
    else if chunkPresent e fc then s.dropFrame .xFpDup (some s.cf.pgn)
    else storeEntry s.cf.pgn s.cf.source (addChunk e fc (nextChunk s.cf.data)) s

/-- REASSEMBLE (R146): the control byte selects FP.FIRST or FP.NEXT. -/
def reassemble (now : Nat) (s : State) : State :=
  match controlOf s.cf.data with
  | none => s.dropFrame .xFpEmpty (some s.cf.pgn)
  | some ctl =>
    if controlFc ctl = 0 then runFpFirst (controlSeq ctl) now s
    else runFpNext (controlSeq ctl) (controlFc ctl) s

/-- FP.FIRST by itself, for the frame in the decoded-frame registers. -/
def execFpFirst (seq : BitVec 3) (now : Nat) (s : State) : Host.Outcome State Fault Refusal :=
  .next (runFpFirst seq now s)

/-- FP.NEXT by itself, for the frame in the decoded-frame registers. -/
def execFpNext (seq : BitVec 3) (fc : BitVec 5) (s : State) : Host.Outcome State Fault Refusal :=
  .next (runFpNext seq fc s)

/-- Is there an entry of `p` with `stored >= plen` (R156: when FP.EMIT is called)? -/
def entryComplete (p : Pgn) (s : State) : Bool := (s.fptGet p).any completeEntry

/-- FP.EMIT by itself, where R156 says it is called. -/
def execFpEmit (p : Pgn) (src : Byte) (s : State) : Host.Outcome State Fault Refusal :=
  if entryComplete p s then .next (runFpEmit p src s) else .fault .notComplete

end Sys2Proof.Machine
end

