-- ==== Sys2Proof/Machine/Pipeline.lean ====
section
/-! DEFINITION. Sys2Proof/Machine/Pipeline.lean: RX, SF.EMIT and the stage order PROCESS (spec/45_pipeline.md). -/

namespace Sys2Proof.Machine

/-- SF.EMIT (R180): one record with the decoded frame, no throttle. -/
def runSfEmit (s : State) : State := s.emit s.cf.pgn s.cf.source s.cf.data

/-- The stages after DEC, for the frame in the decoded-frame registers: filter, then routing by PGN alone (R178,
R179). -/
def routeFrame (now : Nat) (s : State) : State :=
  if allowed s.cfg s.cf.pgn then
    if isFast s.cfg.fast s.cf.pgn then reassemble now s else runSfEmit s
  else s.dropFrame .nFiltered (some s.cf.pgn)

/-- PROCESS (R178). At its end the decoded-frame registers are released (R11). -/
def process (body : List Byte) (now : Nat) (s : State) : State :=
  match runDec body s with
  | (.dropped _, t) => t
  | (.ok _, t) => (routeFrame now t).clearCf

/-- The loop of R176, at most `passes` passes of it. -/
def rxLoop : Nat → Nat → State → State
  | 0, _, s => s
  | passes + 1, now, s =>
    match runFramer s with
    | (.needMoreData, t) => t
    | (.dropped _, t) => rxLoop passes now t
    | (.frame body, t) => rxLoop passes now (process body now t)

/-- The bytes of a chunk appended at once, then the loop of R176 to its exit. Every pass that does not exit takes at
least two bytes from RXBUF (R176 corner case 4), so its length bounds the passes. -/
def runChunk (chunk : List Byte) (now : Nat) (s : State) : State :=
  rxLoop ((s.rxbuf ++ chunk).length + 1) now (s.pushBytes chunk)

/-- RX (R176): one byte. -/
def runRx (b : Byte) (now : Nat) (s : State) : State := runChunk [b] now s

/-- RX, run to completion before anything else is looked at (R46). -/
def execRx (b : Byte) (now : Nat) (s : State) : Host.Outcome State Fault Refusal := .next (runRx b now s)

/-- SF.EMIT by itself, for the frame in the decoded-frame registers. -/
def execSfEmit (s : State) : Host.Outcome State Fault Refusal := .next (runSfEmit s)

end Sys2Proof.Machine
end

