-- ==== Sys2Proof/Machine/Reset.lean ====
section
/-! DEFINITION. Sys2Proof/Machine/Reset.lean: RESET (spec/70_reset_and_hazards.md). -/

namespace Sys2Proof.Machine

/-- RESET (R231): all dynamic state empty, the configuration and the records already appended stay (R33). The
decoded-frame registers hold no value after it (R33). -/
def runReset (s : State) : State :=
  { s with rxbuf := [], skip := false, fpt := [], thr := [], cf := .atRest }

/-- RESET as an event of the interface. -/
def execReset (s : State) : Host.Outcome State Fault Refusal := .next (runReset s)

end Sys2Proof.Machine
end

