-- ==== Sys2Proof/Machine/Dispatch.lean ====
section
/-! DEFINITION. Sys2Proof/Machine/Dispatch.lean: one arm per operation, each a direct call of its meaning. -/

namespace Sys2Proof.Machine

def exec (i : Instr) (s : State) : Host.Outcome State Fault Refusal :=
  match i with
  -- events of the interface
  | .rx b now => Sys2Proof.Machine.execRx b now s
  | .reset => Sys2Proof.Machine.execReset s
  -- Transport Framer
  | .frmDelim => Sys2Proof.Machine.execFrmDelim s
  | .frmFixed => Sys2Proof.Machine.execFrmFixed s
  | .frmSkip => Sys2Proof.Machine.execFrmSkip s
  -- Frame Decoder, PGN Filter, Throttle Gate
  | .dec body => Sys2Proof.Machine.execDec body s
  | .flt pgn => Sys2Proof.Machine.execFlt pgn s
  | .thrAccept pgn now => Sys2Proof.Machine.execThrAccept pgn now s
  -- single-frame path and Fast-Packet Reassembler
  | .sfEmit => Sys2Proof.Machine.execSfEmit s
  | .fpFirst seq now => Sys2Proof.Machine.execFpFirst seq now s
  | .fpNext seq fc => Sys2Proof.Machine.execFpNext seq fc s
  | .fpEmit p src => Sys2Proof.Machine.execFpEmit p src s

end Sys2Proof.Machine
end

