-- ==== Sys2Proof/Machine/Step.lean ====
section
/-! DEFINITION. Sys2Proof/Machine/Step.lean: one step, and the host's way of placing one operation. -/

namespace Sys2Proof.Machine

/-- One step: the next request's operation is run to completion (R46). Input that selects no operation is dropped or
passed over (R69, R195). With nothing asked the block is at rest and nothing changes (R181). -/
def step (s : State) : Host.Outcome State Fault Refusal :=
  match fetch s with
  | none => .next s
  | some (.ok i, t) => exec i t
  | some (.error e, t) => .next (passOver e t)

/-- The state in which a request at `level` finds `bytes` where its fetch reads them. -/
def State.placeAt (s : State) (level : Level) (bytes : List Byte) : State :=
  match level with
  | .delim => { s with cfg := { s.cfg with mode := .delim }, rxbuf := bytes, input := ⟨level, []⟩ :: s.input }
  | .fixed => { s with cfg := { s.cfg with mode := .fixed }, rxbuf := bytes, skip := false, input := ⟨level, []⟩ :: s.input }
  | .separator => { s with cfg := { s.cfg with mode := .fixed }, rxbuf := bytes, skip := true, input := ⟨level, []⟩ :: s.input }
  | .control _ => { s with cf := { s.cf with data := bytes.reverse }, input := ⟨level, []⟩ :: s.input }
  | .throttle _ _ => { s with cf := { s.cf with data := bytes.reverse }, input := ⟨level, []⟩ :: s.input }
  | .rx _ | .reset | .body | .pgn | .single | .complete _ _ => { s with input := ⟨level, bytes⟩ :: s.input }

/-- The state whose next step runs the operation of a table row's word (logs 2 and 6). A word that selects nothing
leaves the state as it is. -/
def State.withFetchWord (s : State) (nbits w : Nat) : State :=
  match tableLevel (bytesOfWord (nbits / 8) w) with
  | none => s
  | some level => s.placeAt level (bytesOfWord (nbits / 8) w)

end Sys2Proof.Machine
end

