-- ==== Sys2Proof/Safety.lean ====
section
/-! DEFINITION. Sys2Proof/Safety.lean: what the statements mean by a good state and a good run. -/

namespace Sys2Proof.Safety

open Sys2Proof.Machine

/-! ## The invariant of the machine -/

/-- RXBUF between two events (R44): in DELIM mode empty, or beginning with `0xAA` and without `0x55`; in FIXED mode at
most 12 bytes. -/
abbrev RxbufShape (s : State) : Prop :=
  if s.cfg.mode = .delim then s.rxbuf = [] ∨ (s.rxbuf.head? = some 0xAA ∧ 0x55 ∉ s.rxbuf) else s.rxbuf.length ≤ 12

/-- SKIP (R13, R96): never set in DELIM mode; in FIXED mode, set only while the separator has not arrived. -/
abbrev SkipShape (s : State) : Prop :=
  if s.cfg.mode = .delim then s.skip = false else s.skip = true → s.rxbuf = []

/-- A reassembly entry (R27, R28 items 1, 2, 5, 6). -/
abbrev EntryInv (e : FastPacketState) : Prop :=
  e.frames.wf ∧
  (∀ x ∈ e.frames, x.1 < 32) ∧
  e.stored.toNat = (e.frames.map fun x => x.2.length).sum ∧
  (∃ x ∈ e.frames, x.1 = 0) ∧
  (∀ x ∈ e.frames, x.2.length ≤ if x.1 = 0 then 6 else 7) ∧
  e.stored.toNat < e.plen.toNat

/-- The two tables: canonical, keyed by 18-bit PGNs (R27, R29, R40), every entry good. -/
abbrev TablesInv (s : State) : Prop :=
  s.fpt.wf ∧ s.thr.wf ∧ (∀ x ∈ s.fpt, x.1 < pgnCount ∧ EntryInv x.2) ∧ ∀ x ∈ s.thr, x.1 < pgnCount

/-- The decoded-frame registers and the output records: bits 31:18 of a PGN are zero (R9, R11, R113), `cf.data` has at
most 8 bytes (R11), a payload at most 223 (R28 item 7, R162). -/
abbrev WidthsInv (s : State) : Prop :=
  s.cf.pgn.toNat < pgnCount ∧ s.cf.data.length ≤ 8 ∧
  ∀ r ∈ s.out, r.pgn.toNat < pgnCount ∧ r.payload.length ≤ 223

/-- The invariant that every step keeps. -/
abbrev Inv (s : State) : Prop := RxbufShape s ∧ SkipShape s ∧ TablesInv s ∧ WidthsInv s

/-! ## Runs driven by the interface -/

/-- A request of the interface (R175): one received byte with its time stamp, or RESET. -/
def isEvent (r : Request) : Bool :=
  match r.level with
  | .rx _ => r.bytes.length == 1
  | .reset => r.bytes.isEmpty
  | _ => false

/-- Nothing but events of the interface waits. -/
abbrev EventsOnly (s : State) : Prop := ∀ r ∈ s.input, isEvent r = true

/-- The framer operation of the configured MODE (R176). -/
def framerOf (s : State) : Instr :=
  match s.cfg.mode with
  | .delim => .frmDelim
  | .fixed => .frmFixed

/-- A chunk delivered as one RX per byte, all with one `now` (R177). -/
def feedBytes (now : Nat) : List Byte → State → Host.Outcome State Fault Refusal
  | [], s => .next s
  | b :: rest, s =>
    match exec (.rx b now) s with
    | .next t => feedBytes now rest t
    | o => o

/-- Later frames of the sequence `seq` of the PGN in `cf`, each given by its frame counter and its payload bytes as
they stand in `cf.data`, run one after another by FP.NEXT. -/
def feedLater (seq : BitVec 3) : List (BitVec 5 × List Byte) → State → Host.Outcome State Fault Refusal
  | [], s => .next { s with cf := { s.cf with data := [] } }
  | (fc, chunk) :: rest, s =>
    match exec (.fpNext seq fc) { s with cf := { s.cf with data := chunk ++ [controlByte seq fc] } } with
    | .next t => feedLater seq rest t
    | o => o

/-- The times at which THR.ACCEPT, called for `p` at the given times one after another, admits. -/
def admissions (p : Pgn) : List Nat → State → List Nat
  | [], _ => []
  | now :: rest, s =>
    match exec (.thrAccept p now) s with
    | .next t => if t.ret = .verdict true then now :: admissions p rest t else admissions p rest t
    | _ => []

/-- Is a first frame of `p` at `now` admitted (R136, in the integers)? -/
abbrev Admits (s : State) (p : Pgn) (now : Nat) : Prop :=
  ∀ t, s.thr.get p.toNat = some t → (s.cfg.minInterval : Int) ≤ (now : Int) - (t : Int)

/-- The chunks of an entry in ascending frame-counter order (R156), written from the lookup of each counter. -/
def inOrder (frames : Table (List Byte)) : List Byte :=
  ((List.range 32).map fun k => (frames.get k).getD []).flatten

end Sys2Proof.Safety
end

