-- ==== Sys2Proof/Certificates/Slice0/Obligations.lean ====
section
/-! DEFINITION. Sys2Proof/Certificates/Slice0/Obligations.lean: the statements for the provers. Each docstring names
the rule of spec/ it formalises. An equation `exec i s = .next { s with … }` is result, completion and frame at once:
every field it does not name is unchanged, the configuration, the tables and the two streams among them.

Model's choices that clauses rest on: `ret` holds an operation's result (log 5), `input` the requests to come (log 6),
and `cf := .atRest` is what the decoded-frame registers hold once a frame has been handled, where the spec says `no value`
(log 4). A docstring names the log where a statement rests on one. -/

open Sys2Proof Sys2Proof.Machine Sys2Proof.Safety

/-! ## Decoding, encoding and the step -/

/-- R69, R60 to R68: at its own level every well-formed operation's bits select that operation with those operands. -/
def Obligations.DecodeEncodeRoundTrip : Prop :=
  ∀ i : Instr, i.wf = true → decode (levelOf i) (encode i) = .ok i

/-- R69, R72: the decoder answers well-formed operations only. -/
def Obligations.DecodedOperationsAreWellFormed : Prop :=
  ∀ (l : Level) (bytes : List Byte) (i : Instr), decode l bytes = .ok i → i.wf = true

/-- R69, R46, R177: when the bits of the next request select an operation, the step is exec of that operation with the
request taken off the input (of a chunk, its first byte); nothing else is done around it. -/
def Obligations.StepRunsDecodedOperation : Prop :=
  ∀ (s : State) (r : Request) (rest : List Request) (i : Instr), s.input = r :: rest →
    decode r.level (fetchBytes r s) = .ok i → step s = exec i { s with input := remaining r ++ rest }

/-- R181: with nothing asked the block is at rest; that the step then changes nothing is the model's choice (log 6). -/
def Obligations.RestingBlockDoesNotAct : Prop :=
  ∀ s : State, s.input = [] → step s = .next s

/-- Words of the rows FRM.DELIM (n = 0, n = 8), FRM.FIXED (n = 0), FP.FIRST, FP.NEXT (both control byte) and RESET,
written from their encodings, decode to their operations (the reading of a bare word is the model's choice, log 2). -/
def Obligations.TableWordsDecode : Prop :=
  decodeTableWord 56 0xAA000000000055 = some .frmDelim ∧
  decodeTableWord 120 0xAA0800000000000000000000000055 = some .frmDelim ∧
  decodeTableWord 104 0x00000000000000000000000000 = some .frmFixed ∧
  decodeTableWord 8 0x60 = some (.fpFirst 3 0) ∧
  decodeTableWord 8 0x7F = some (.fpNext 3 31) ∧
  decodeTableWord 0 0 = some .reset

/-! ## Transport Framer -/

/-- R91, R92, R93: FRM.DELIM on every content of RXBUF. Without `0xAA` everything is discarded; with `0xAA` and no
`0x55` after it the bytes in front are discarded; otherwise the candidate `AA mid 55` is cut and put to the length
check, whose `n` is the low nibble of its second byte. -/
def Obligations.FrmDelimCutsTheFirstCandidate : Prop :=
  ∀ s : State, s.cfg.mode = .delim →
    ((0xAA : Byte) ∉ s.rxbuf → exec .frmDelim s = .next { s with rxbuf := [], ret := .needMoreData }) ∧
    (∀ pre mid : List Byte, s.rxbuf = pre ++ 0xAA :: mid → 0xAA ∉ pre → 0x55 ∉ mid →
      exec .frmDelim s = .next { s with rxbuf := 0xAA :: mid, ret := .needMoreData }) ∧
    (∀ pre mid post : List Byte, s.rxbuf = pre ++ 0xAA :: (mid ++ 0x55 :: post) → 0xAA ∉ pre → 0x55 ∉ mid →
      let w : List Byte := 0xAA :: mid ++ [0x55]
      let n := (w.getD 1 0).toNat % 16
      let dropWith := fun c : DropCode =>
        Host.Outcome.next (φ := Fault) (ρ := Refusal)
          { s with rxbuf := post, diag := s.diag ++ [⟨c, none⟩], ret := .dropped c }
      exec .frmDelim s =
        if w.length < 3 then dropWith .xRunt
        else if w.length < 7 then dropWith .xShort
        else if 8 < n then dropWith .xDlen
        else if w.length < 7 + n then dropWith .xShort
        else .next { s with rxbuf := post, ret := .frame mid })

/-- R61, R93: behind any bytes without `0xAA`, a whole DELIM frame of a physical frame `f`, with any trailing bytes, is
cut out and its body handed on, whatever follows it. -/
def Obligations.DelimWireFrameIsCut : Prop :=
  ∀ (s : State) (f : Wire) (garbage trailing post : List Byte), s.cfg.mode = .delim → f.data.length ≤ 8 →
    0xAA ∉ garbage → 0x55 ∉ f.body ++ trailing → s.rxbuf = garbage ++ f.delim trailing ++ post →
    exec .frmDelim s = .next { s with rxbuf := post, ret := .frame (f.body ++ trailing) }

/-- R241 (a): a `0x55` inside a physical frame, at wire position 1 + a.length, ends the candidate there; the frame is
dropped, with X_RUNT when it is the type byte and X_SHORT otherwise, and the rest stays in RXBUF. -/
def Obligations.EmbeddedEndMarkerLosesTheFrame : Prop :=
  ∀ (s : State) (f : Wire) (a c post : List Byte), s.cfg.mode = .delim → f.data.length ≤ 8 →
    f.body = a ++ 0x55 :: c → 0x55 ∉ a → s.rxbuf = f.delim [] ++ post →
    let code := if a = [] then DropCode.xRunt else DropCode.xShort
    exec .frmDelim s =
      .next { s with rxbuf := c ++ 0x55 :: post, diag := s.diag ++ [⟨code, none⟩], ret := .dropped code }

/-- R241 (b): a stray `0xAA` right in front of the start marker makes the marker the type byte, whose low nibble is
10: the end marker of the real frame then drops the candidate with X_DLEN. -/
def Obligations.StrayStartMarkerLosesTheFrame : Prop :=
  ∀ (s : State) (f : Wire) (trailing : List Byte) (now : Nat), s.cfg.mode = .delim →
    s.rxbuf = 0xAA :: 0xAA :: (f.body ++ trailing) → 0x55 ∉ f.body ++ trailing →
    exec (.rx 0x55 now) s =
      .next { s with rxbuf := [], diag := s.diag ++ [⟨.xDlen, none⟩] }

/-- R96: FRM.FIXED on every content of RXBUF and SKIP. -/
def Obligations.FrmFixedCutsThirteenBytes : Prop :=
  ∀ s : State, s.cfg.mode = .fixed →
    (s.skip = true → s.rxbuf = [] → exec .frmFixed s = .next { s with ret := .needMoreData }) ∧
    (∀ (x : Byte) (rest : List Byte), s.skip = true → s.rxbuf = x :: rest →
      exec .frmFixed s = exec .frmFixed { s with rxbuf := rest, skip := false }) ∧
    (s.skip = false → s.rxbuf.length < 13 → exec .frmFixed s = .next { s with ret := .needMoreData }) ∧
    (∀ f : List Byte, s.skip = false → f.length = 13 → s.rxbuf = f →
      exec .frmFixed s = .next { s with rxbuf := [], skip := true, ret := .frame f }) ∧
    (∀ (f : List Byte) (x : Byte) (rest : List Byte), s.skip = false → f.length = 13 → s.rxbuf = f ++ x :: rest →
      exec .frmFixed s = .next { s with rxbuf := rest, skip := false, ret := .frame f })

/-- R97: FRM.SKIP removes the first byte without looking at it and clears SKIP. -/
def Obligations.FrmSkipDiscardsOneByte : Prop :=
  ∀ (s : State) (x : Byte) (rest : List Byte), s.skip = true → s.rxbuf = x :: rest →
    exec .frmSkip s = .next { s with rxbuf := rest, skip := false }

/-- The model's choice (log 7), from R60, R97, R111, R156: an operation run by itself outside the condition under which
its rule calls it stops by name and has no effect. -/
def Obligations.CallsOutsideTheirConditionStop : Prop :=
  ∀ s : State,
    (s.cfg.mode = .fixed → exec .frmDelim s = .fault .wrongMode) ∧
    (s.cfg.mode = .delim → exec .frmFixed s = .fault .wrongMode) ∧
    (s.skip = false ∨ s.rxbuf = [] → exec .frmSkip s = .fault .noSeparatorPending) ∧
    exec (.dec []) s = .fault .emptyBody ∧
    (∀ (p : Pgn) (src : Byte), (∀ e, s.fpt.get p.toNat = some e → e.stored.toNat < e.plen.toNat) →
      exec (.fpEmit p src) s = .fault .notComplete)

/-! ## Frame Decoder -/

/-- R111, R41, R42: DEC of a body of at least 5 bytes, in arithmetic: `n` is the low nibble of the type byte, the frame
id is `I0 + 2^8 I1 + 2^16 I2 + 2^24 I3`, the PGN its 18 bits from bit 8, the source its low byte, the data reversed. -/
def Obligations.DecReadsTheFields : Prop :=
  ∀ (s : State) (ty i0 i1 i2 i3 : Byte) (rest : List Byte),
    let body := ty :: i0 :: i1 :: i2 :: i3 :: rest
    let n := ty.toNat % 16
    let id := i0.toNat + 256 * i1.toNat + 65536 * i2.toNat + 16777216 * i3.toNat
    (8 < n → exec (.dec body) s = .next { s with diag := s.diag ++ [⟨.xDlen, none⟩], ret := .dropped .xDlen }) ∧
    (n ≤ 8 → rest.length < n →
      exec (.dec body) s = .next { s with diag := s.diag ++ [⟨.xShort, none⟩], ret := .dropped .xShort }) ∧
    (n ≤ 8 → n ≤ rest.length → ∃ (p : Pgn) (q : Byte),
      exec (.dec body) s = .next { s with cf := ⟨p, q, (rest.take n).reverse⟩, ret := .decoded } ∧
      p.toNat = id / 256 % 262144 ∧ q.toNat = id % 256)

/-- R60 to R65: every physical frame's body, with any bytes after the data, decodes to exactly its PGN, source and
reversed data, whatever the ignored bits are. -/
def Obligations.WireBodyDecodesToItsFields : Prop :=
  ∀ (s : State) (f : Wire) (after : List Byte), f.data.length ≤ 8 →
    exec (.dec (f.body ++ after)) s =
      .next { s with cf := ⟨f.pgn.zeroExtend 32, f.source, f.data.reverse⟩, ret := .decoded }

/-- R71: type byte bits 7:4, frame id bits 31:26 and the bytes after the data are read by nothing. -/
def Obligations.DecIgnoresUnreadBits : Prop :=
  ∀ (s : State) (ty ty' i0 i1 i2 i3 i3' : Byte) (data after after' : List Byte),
    ty.toNat % 16 = ty'.toNat % 16 → i3.toNat % 4 = i3'.toNat % 4 → data.length = ty.toNat % 16 →
    exec (.dec (ty :: i0 :: i1 :: i2 :: i3 :: data ++ after)) s =
      exec (.dec (ty' :: i0 :: i1 :: i2 :: i3' :: data ++ after')) s

/-! ## PGN Filter -/

/-- R126: the include set wins outright; then the exclude set; with neither, every PGN is allowed. FLT changes nothing
but its own answer. -/
def Obligations.FltVerdict : Prop :=
  ∀ (s : State) (p : Pgn), ∃ b : Bool, exec (.flt p) s = .next { s with ret := .verdict b } ∧
    (b = true ↔
      (s.cfg.incl ≠ [] ∧ (p.toNat : Int) ∈ s.cfg.incl) ∨
      (s.cfg.incl = [] ∧ s.cfg.excl ≠ [] ∧ (p.toNat : Int) ∉ s.cfg.excl) ∨
      (s.cfg.incl = [] ∧ s.cfg.excl = []))

/-- R125: whatever one RX appends to OUT has a PGN the filter allows. -/
def Obligations.RxForwardsAllowedPgnsOnly : Prop :=
  ∀ (s t : State) (b : Byte) (now : Nat), exec (.rx b now) s = .next t →
    ∃ o, t.out = s.out ++ o ∧ ∀ r ∈ o, allowed s.cfg r.pgn = true

/-! ## Throttle Gate -/

/-- R136: the three cases of THR.ACCEPT. A rejection records nothing. -/
def Obligations.ThrAcceptCases : Prop :=
  ∀ (s : State) (p : Pgn) (now : Nat),
    (s.thr.get p.toNat = none →
      exec (.thrAccept p now) s = .next { s with thr := s.thr.set p.toNat now, ret := .verdict true }) ∧
    (∀ t, s.thr.get p.toNat = some t →
      ((s.cfg.minInterval : Int) ≤ (now : Int) - (t : Int) →
        exec (.thrAccept p now) s = .next { s with thr := s.thr.set p.toNat now, ret := .verdict true }) ∧
      ((now : Int) - (t : Int) < (s.cfg.minInterval : Int) →
        exec (.thrAccept p now) s = .next { s with ret := .verdict false }))

/-- R136, R29: read back through the table: an acceptance makes `now` the entry of `p` and touches no other PGN's; a
rejection leaves every entry. -/
def Obligations.ThrAcceptRecordsAcceptancesOnly : Prop :=
  ∀ (s t : State) (p : Pgn) (now : Nat), exec (.thrAccept p now) s = .next t →
    (∀ q : Pgn, q ≠ p → t.thr.get q.toNat = s.thr.get q.toNat) ∧
    (t.ret = .verdict true → t.thr.get p.toNat = some now) ∧
    (t.ret = .verdict false → t.thr.get p.toNat = s.thr.get p.toNat)

/-- R136 corner case 1, R137: of any calls one after another for one PGN, at any times, the admitted ones are at least
MIN_INTERVAL apart, and from the last earlier admission too. -/
def Obligations.AdmissionsAreSpaced : Prop :=
  ∀ (s : State) (p : Pgn) (times : List Nat),
    (admissions p times s).Pairwise (fun a b => a + s.cfg.minInterval ≤ b) ∧
    ∀ t, s.thr.get p.toNat = some t → ∀ a ∈ admissions p times s, t + s.cfg.minInterval ≤ a

/-! ## Fast-Packet Reassembler -/

/-- R148, R149: FP.FIRST. Fewer than two data bytes: X_FP_NOLEN, the throttle not consulted. Rejected: N_THROTTLED,
nothing else. Admitted: THR records `now` and the entry is made anew; it is kept, or emitted and removed when the
chunk already has the announced length. -/
def Obligations.FpFirstCases : Prop :=
  ∀ (s : State) (seq : BitVec 3) (now : Nat),
    let p := s.cf.pgn
    (s.cf.data.length < 2 → exec (.fpFirst seq now) s =
      .next { s with diag := s.diag ++ [⟨.xFpNolen, some p⟩] }) ∧
    (∀ (chunk : List Byte) (plen ctl : Byte), s.cf.data = chunk ++ [plen, ctl] → chunk.length ≤ 6 →
      (¬ Admits s p now → exec (.fpFirst seq now) s =
        .next { s with diag := s.diag ++ [⟨.nThrottled, some p⟩] }) ∧
      (Admits s p now → chunk.length < plen.toNat → exec (.fpFirst seq now) s =
        .next { s with
          thr := s.thr.set p.toNat now
          fpt := s.fpt.set p.toNat ⟨seq, plen, BitVec.ofNat 32 chunk.length, [(0, chunk)]⟩ }) ∧
      (Admits s p now → plen.toNat ≤ chunk.length → exec (.fpFirst seq now) s =
        .next { s with
          thr := s.thr.set p.toNat now
          fpt := s.fpt.erase p.toNat
          out := s.out ++ [⟨p, s.cf.source, chunk.take plen.toNat⟩] }))

/-- R150: an admitted first frame's outcome does not depend on the entry the PGN had, its sequence counter included. -/
def Obligations.SupersedingIsUnconditional : Prop :=
  ∀ (s : State) (seq : BitVec 3) (now : Nat) (old : FastPacketState), 2 ≤ s.cf.data.length →
    Admits s s.cf.pgn now →
    exec (.fpFirst seq now) { s with fpt := s.fpt.set s.cf.pgn.toNat old } = exec (.fpFirst seq now) s

/-- R152: FP.NEXT, its three drops in order, and the store; after it `stored >= plen` emits and removes the entry. The
premises on lengths are `len(cf.data) <= 8` and R28 item 7. -/
def Obligations.FpNextCases : Prop :=
  ∀ (s : State) (seq : BitVec 3) (fc : BitVec 5),
    let p := s.cf.pgn
    (s.fpt.get p.toNat = none → exec (.fpNext seq fc) s =
      .next { s with diag := s.diag ++ [⟨.xFpNostart, some p⟩] }) ∧
    (∀ e, s.fpt.get p.toNat = some e →
      (seq ≠ e.seq → exec (.fpNext seq fc) s =
        .next { s with diag := s.diag ++ [⟨.xFpSeq, some p⟩] }) ∧
      (seq = e.seq → e.frames.get fc.toNat ≠ none → exec (.fpNext seq fc) s =
        .next { s with diag := s.diag ++ [⟨.xFpDup, some p⟩] }) ∧
      (∀ (chunk : List Byte) (ctl : Byte), seq = e.seq → e.frames.get fc.toNat = none →
        s.cf.data = chunk ++ [ctl] → chunk.length ≤ 7 → e.stored.toNat ≤ 223 →
        let frames := e.frames.set fc.toNat chunk
        (e.stored.toNat + chunk.length < e.plen.toNat → exec (.fpNext seq fc) s =
          .next { s with
            fpt := s.fpt.set p.toNat ⟨e.seq, e.plen, BitVec.ofNat 32 (e.stored.toNat + chunk.length), frames⟩ }) ∧
        (e.plen.toNat ≤ e.stored.toNat + chunk.length → exec (.fpNext seq fc) s =
          .next { s with
            fpt := s.fpt.erase p.toNat
            out := s.out ++ [⟨p, s.cf.source, (inOrder frames).take e.plen.toNat⟩] })))

/-- R156: FP.EMIT of a complete entry removes it and appends the first `plen` bytes of the chunks concatenated in
ascending frame-counter order. -/
def Obligations.FpEmitAppendsTheTrimmedChunks : Prop :=
  ∀ (s : State) (p : Pgn) (src : Byte) (e : FastPacketState), s.fpt.get p.toNat = some e →
    e.plen.toNat ≤ e.stored.toNat →
    exec (.fpEmit p src) s =
      .next { s with
        fpt := s.fpt.erase p.toNat
        out := s.out ++ [⟨p, src, (inOrder e.frames).take e.plen.toNat⟩] }

/-- R156 corner cases 1 and 3, R161: when a later frame completes a sequence, one record is appended, its payload is
exactly as long as announced, the entry is gone, and every later frame after it is dropped with X_FP_NOSTART. -/
def Obligations.CompletionEmitsExactlyOnce : Prop :=
  ∀ (s t : State) (seq : BitVec 3) (fc : BitVec 5), Inv s → exec (.fpNext seq fc) s = .next t → t.out ≠ s.out →
    ∃ e r, s.fpt.get s.cf.pgn.toNat = some e ∧ t.out = s.out ++ [r] ∧ r.pgn = s.cf.pgn ∧ r.source = s.cf.source ∧
      r.payload.length = e.plen.toNat ∧ t.fpt.get s.cf.pgn.toNat = none ∧
      ∀ (seq' : BitVec 3) (fc' : BitVec 5), exec (.fpNext seq' fc') t =
        .next { t with diag := t.diag ++ [⟨.xFpNostart, some s.cf.pgn⟩] }

/-- R152 corner case 1, R161 (out-of-order tolerance): later frames with distinct frame counters that all are needed
for completion leave the same state in whatever order they arrive. -/
def Obligations.ArrivalOrderDoesNotMatter : Prop :=
  ∀ (s : State) (e : FastPacketState) (fs gs : List (BitVec 5 × List Byte)), Inv s →
    s.fpt.get s.cf.pgn.toNat = some e → fs.Perm gs → (fs.map Prod.fst).Nodup →
    (∀ x ∈ fs, e.frames.get x.1.toNat = none ∧ x.2.length ≤ 7 ∧
      e.stored.toNat + (fs.map fun y => y.2.length).sum < e.plen.toNat + x.2.length) →
    feedLater e.seq fs s = feedLater e.seq gs s

/-- R161 (idempotence): a later frame that was stored and did not complete the sequence, replayed, is dropped with
X_FP_DUP and changes nothing else. -/
def Obligations.ReplayedLaterFrameChangesNothing : Prop :=
  ∀ (s t : State) (seq : BitVec 3) (fc : BitVec 5), exec (.fpNext seq fc) s = .next t → t.fpt ≠ s.fpt →
    t.fpt.get s.cf.pgn.toNat ≠ none →
    exec (.fpNext seq fc) t = .next { t with diag := t.diag ++ [⟨.xFpDup, some s.cf.pgn⟩] }

/-- R48, R160: an operation on one PGN leaves the reassembly entry and the throttle entry of every other PGN. -/
def Obligations.OtherPgnsAreUntouched : Prop :=
  ∀ (s t : State) (q : Pgn),
    (∀ seq now, q ≠ s.cf.pgn → exec (.fpFirst seq now) s = .next t →
      t.fpt.get q.toNat = s.fpt.get q.toNat ∧ t.thr.get q.toNat = s.thr.get q.toNat) ∧
    (∀ seq fc, q ≠ s.cf.pgn → exec (.fpNext seq fc) s = .next t →
      t.fpt.get q.toNat = s.fpt.get q.toNat ∧ t.thr = s.thr) ∧
    (∀ p src, q ≠ p → exec (.fpEmit p src) s = .next t →
      t.fpt.get q.toNat = s.fpt.get q.toNat ∧ t.thr = s.thr)

/-- R114, R147: the source address takes no part in throttling or reassembly: frames that differ in it alone leave the
same tables and the same drops, and forward the same PGNs and payloads. -/
def Obligations.SourceAddressIsNoKey : Prop :=
  ∀ (s t t' : State) (i : Instr) (src : Byte),
    (∃ seq now, i = .fpFirst seq now) ∨ (∃ seq fc, i = .fpNext seq fc) →
    exec i s = .next t → exec i { s with cf := { s.cf with source := src } } = .next t' →
    t'.fpt = t.fpt ∧ t'.thr = t.thr ∧ t'.diag = t.diag ∧
      t'.out.map (fun r => (r.pgn, r.payload)) = t.out.map (fun r => (r.pgn, r.payload))

/-- R28 item 7, R162: an entry holds at most 32 chunks and 223 bytes. -/
def Obligations.EntryIsBounded : Prop :=
  ∀ (s : State) (p : Pgn) (e : FastPacketState), Inv s → s.fpt.get p.toNat = some e →
    e.frames.length ≤ 32 ∧ e.stored.toNat ≤ 223

/-- R245, R148 corner case 5: an entry with `plen > 223` is never completed by a later frame. -/
def Obligations.OversizedSequenceNeverCompletes : Prop :=
  ∀ (s t : State) (seq : BitVec 3) (fc : BitVec 5) (e : FastPacketState), Inv s →
    s.fpt.get s.cf.pgn.toNat = some e → 223 < e.plen.toNat → exec (.fpNext seq fc) s = .next t →
    t.out = s.out ∧ ∃ e', t.fpt.get s.cf.pgn.toNat = some e' ∧ e'.plen = e.plen ∧ e'.seq = e.seq

/-! ## Pipeline -/

/-- R180: SF.EMIT appends the decoded frame and reads or writes nothing else. -/
def Obligations.SfEmitForwardsTheFrame : Prop :=
  ∀ s : State, exec .sfEmit s =
    .next { s with out := s.out ++ [⟨s.cf.pgn, s.cf.source, s.cf.data⟩] }

/-- R176, R178, R146: RX is its operations in order. The byte is appended and the framer operation of MODE run; a frame
it cuts goes through DEC, FLT, and then SF.EMIT or the control byte's FP.FIRST or FP.NEXT, each stage run on what
the one before left, the codes N_FILTERED and X_FP_EMPTY being appended between them; then the decoded-frame
registers are at rest (the model's choice, log 4; `ret` is the model's own, log 5). -/
def Obligations.RxRunsItsOperationsInOrder : Prop :=
  ∀ (s t : State) (b : Byte) (now : Nat), Inv s →
    exec (framerOf s) { s with rxbuf := s.rxbuf ++ [b] } = .next t →
    (t.ret = .needMoreData ∨ (∃ c, t.ret = .dropped c) → exec (.rx b now) s = .next { t with ret := s.ret }) ∧
    (∀ body u, t.ret = .frame body → exec (.dec body) t = .next u →
      ((∃ c, u.ret = .dropped c) → exec (.rx b now) s = .next { u with ret := s.ret }) ∧
      (∀ v, u.ret = .decoded → exec (.flt u.cf.pgn) u = .next v →
        (v.ret = .verdict false → exec (.rx b now) s =
          .next { u with diag := u.diag ++ [⟨.nFiltered, some u.cf.pgn⟩], cf := .atRest, ret := s.ret }) ∧
        (v.ret = .verdict true → isFast s.cfg.fast u.cf.pgn = false → ∀ x, exec .sfEmit u = .next x →
          exec (.rx b now) s = .next { x with cf := .atRest, ret := s.ret }) ∧
        (v.ret = .verdict true → isFast s.cfg.fast u.cf.pgn = true →
          (u.cf.data = [] → exec (.rx b now) s =
            .next { u with diag := u.diag ++ [⟨.xFpEmpty, some u.cf.pgn⟩], cf := .atRest, ret := s.ret }) ∧
          (∀ rest ctl x, u.cf.data = rest ++ [ctl] →
            exec (if ctl.toNat % 32 = 0 then .fpFirst (BitVec.ofNat 3 (ctl.toNat / 32)) now
              else .fpNext (BitVec.ofNat 3 (ctl.toNat / 32)) (BitVec.ofNat 5 (ctl.toNat % 32))) u = .next x →
            exec (.rx b now) s = .next { x with cf := .atRest, ret := s.ret }))))

/-- R176 corner case 4: RX runs its loop to the exit: afterwards the framer asks for more data and changes nothing. -/
def Obligations.RxLeavesNothingToCut : Prop :=
  ∀ (s t : State) (b : Byte) (now : Nat), exec (.rx b now) s = .next t →
    exec (framerOf t) t = .next { t with ret := .needMoreData }

/-- R49 item 2, R178, R199: one RX appends at most one record to OUT and DIAG together. -/
def Obligations.RxAppendsAtMostOneRecord : Prop :=
  ∀ (s t : State) (b : Byte) (now : Nat), Inv s → exec (.rx b now) s = .next t →
    ∃ o d, t.out = s.out ++ o ∧ t.diag = s.diag ++ d ∧ o.length + d.length ≤ 1

/-- R176 corner case 3, R44: a byte that completes no frame changes RXBUF alone, in each mode; a byte in front of the
first `0xAA` does not even stay. -/
def Obligations.IncompleteFrameIsOnlyBuffered : Prop :=
  ∀ (s : State) (b : Byte) (now : Nat), RxbufShape s → s.skip = false →
    (s.cfg.mode = .delim → s.rxbuf ≠ [] → b ≠ 0x55 →
      exec (.rx b now) s = .next { s with rxbuf := s.rxbuf ++ [b] }) ∧
    (s.cfg.mode = .delim → s.rxbuf = [] → b = 0xAA → exec (.rx b now) s = .next { s with rxbuf := [0xAA] }) ∧
    (s.cfg.mode = .delim → s.rxbuf = [] → b ≠ 0xAA → exec (.rx b now) s = .next s) ∧
    (s.cfg.mode = .fixed → s.rxbuf.length < 12 →
      exec (.rx b now) s = .next { s with rxbuf := s.rxbuf ++ [b] })

/-- R97, R62: in FIXED mode the byte that arrives while a separator is pending is discarded, whatever it is. -/
def Obligations.SeparatorByteIsDiscarded : Prop :=
  ∀ (s : State) (b : Byte) (now : Nat), s.cfg.mode = .fixed → s.skip = true → s.rxbuf = [] →
    exec (.rx b now) s = .next { s with skip := false }

/-- R180, R111, R91: from the wire to OUT in DELIM mode: the end marker of an allowed frame of a PGN that is not FAST
appends exactly its record (`cf` at rest afterwards: the model's choice, log 4). -/
def Obligations.DelimSingleFrameReachesOut : Prop :=
  ∀ (s : State) (f : Wire) (trailing : List Byte) (now : Nat), s.cfg.mode = .delim → f.data.length ≤ 8 →
    s.rxbuf = 0xAA :: (f.body ++ trailing) → 0x55 ∉ f.body ++ trailing →
    allowed s.cfg (f.pgn.zeroExtend 32) = true → isFast s.cfg.fast (f.pgn.zeroExtend 32) = false →
    exec (.rx 0x55 now) s =
      .next { s with
        rxbuf := []
        out := s.out ++ [⟨f.pgn.zeroExtend 32, f.source, f.data.reverse⟩]
        cf := .atRest }

/-- R180, R111, R96: the same in FIXED mode, at the 13th byte, which leaves a separator pending (`cf` at rest
afterwards: the model's choice, log 4). -/
def Obligations.FixedSingleFrameReachesOut : Prop :=
  ∀ (s : State) (f : Wire) (padding : List Byte) (b : Byte) (now : Nat), s.cfg.mode = .fixed → s.skip = false →
    f.data.length + padding.length = 8 → s.rxbuf ++ [b] = f.fixed padding →
    allowed s.cfg (f.pgn.zeroExtend 32) = true → isFast s.cfg.fast (f.pgn.zeroExtend 32) = false →
    exec (.rx b now) s =
      .next { s with
        rxbuf := []
        skip := true
        out := s.out ++ [⟨f.pgn.zeroExtend 32, f.source, f.data.reverse⟩]
        cf := .atRest }

/-- R112, R210: in FIXED mode the 13th byte of a frame whose type byte announces 9 to 15 data bytes drops it with X_DLEN:
its bytes are gone, a separator is pending, and nothing else has changed. -/
def Obligations.FixedReservedLengthIsDropped : Prop :=
  ∀ (s : State) (b : Byte) (now : Nat), s.cfg.mode = .fixed → s.skip = false → s.rxbuf.length = 12 →
    8 < ((s.rxbuf ++ [b]).getD 0 0).toNat % 16 →
    exec (.rx b now) s =
      .next { s with rxbuf := [], skip := true, diag := s.diag ++ [⟨.xDlen, none⟩] }

/-- R125, R126, R210: a complete frame of a PGN that is not allowed leaves one N_FILTERED record and nothing else: no
entry, no throttle record, no output (`cf` at rest afterwards: the model's choice, log 4). -/
def Obligations.FilteredFrameLeavesDiagOnly : Prop :=
  ∀ (s : State) (f : Wire) (trailing : List Byte) (now : Nat), s.cfg.mode = .delim → f.data.length ≤ 8 →
    s.rxbuf = 0xAA :: (f.body ++ trailing) → 0x55 ∉ f.body ++ trailing →
    allowed s.cfg (f.pgn.zeroExtend 32) = false →
    exec (.rx 0x55 now) s =
      .next { s with
        rxbuf := []
        diag := s.diag ++ [⟨.nFiltered, some (f.pgn.zeroExtend 32)⟩]
        cf := .atRest }

/-- R148, R67, R178: from the wire to the table: the end marker of an admitted first frame that does not complete its
message makes the entry, with the payload bytes reversed, and records `now` (`cf` at rest afterwards: the model's
choice, log 4). -/
def Obligations.FirstFrameStartsCollecting : Prop :=
  ∀ (s : State) (f : Wire) (seq : BitVec 3) (plen : Byte) (payload : List Byte) (now : Nat),
    s.cfg.mode = .delim → f.data = firstFrameData seq plen payload → payload.length ≤ 6 →
    payload.length < plen.toNat → s.rxbuf = 0xAA :: f.body → 0x55 ∉ f.body →
    allowed s.cfg (f.pgn.zeroExtend 32) = true → isFast s.cfg.fast (f.pgn.zeroExtend 32) = true →
    Admits s (f.pgn.zeroExtend 32) now →
    exec (.rx 0x55 now) s =
      .next { s with
        rxbuf := []
        fpt := s.fpt.set f.pgn.toNat ⟨seq, plen, BitVec.ofNat 32 payload.length, [(0, payload.reverse)]⟩
        thr := s.thr.set f.pgn.toNat now
        cf := .atRest }

/-- R176 corner case 2: the time stamp of a byte that completes no frame is kept nowhere. -/
def Obligations.EarlierTimeStampsAreNotKept : Prop :=
  ∀ (s : State) (b : Byte) (now now' : Nat), Inv s →
    (s.cfg.mode = .delim ∧ b ≠ 0x55) ∨ (s.cfg.mode = .fixed ∧ (s.rxbuf.length < 12 ∨ s.skip = true)) →
    exec (.rx b now) s = exec (.rx b now') s

/-- R44: the capture scheme: of a DELIM candidate only its first 14 bytes and its length up to 15 have any effect. -/
def Obligations.FifteenByteCaptureSuffices : Prop :=
  ∀ (s : State) (mid mid' : List Byte) (now : Nat), s.cfg.mode = .delim → 0x55 ∉ mid → 0x55 ∉ mid' →
    (0xAA :: mid ++ [0x55]).take 14 = (0xAA :: mid' ++ [0x55]).take 14 →
    min (mid.length + 2) 15 = min (mid'.length + 2) 15 →
    exec (.rx 0x55 now) { s with rxbuf := 0xAA :: mid } = exec (.rx 0x55 now) { s with rxbuf := 0xAA :: mid' }

/-- R177, R176 corner case 1: a chunk delivered whole and a chunk delivered one RX per byte leave the same state. -/
def Obligations.ChunkingIsInvisible : Prop :=
  ∀ (s : State) (chunk : List Byte) (now : Nat), RxbufShape s → SkipShape s →
    feedBytes now chunk s = .next (runChunk chunk now s)

/-! ## Reset -/

/-- R231, R33: RESET empties RXBUF, FPT and THR, clears SKIP, and touches neither the configuration nor the records
already appended; that the decoded-frame registers, which R33 gives no value, are at rest is the model's choice (log 4). -/
def Obligations.ResetClearsDynamicState : Prop :=
  ∀ s : State, exec .reset s =
    .next { s with rxbuf := [], skip := false, fpt := [], thr := [], cf := .atRest }

/-- R232: the state after RESET is the state after construction with the same configuration, but for the records
already appended, the events still to come and the last result (the model's own fields: logs 4, 5 and 6). -/
def Obligations.ResetEqualsConstruction : Prop :=
  ∀ s : State, exec .reset s =
    .next { State.construct s.cfg with out := s.out, diag := s.diag, ret := s.ret, input := s.input }

/-- R33: every construction, `State.reset` among them, meets the invariant (whose canonical
tables are the model's choice, log 9), with nothing buffered, stored or pending. -/
def Obligations.ConstructionMeetsTheInvariant : Prop :=
  (∀ cfg : Cfg, Inv (State.construct cfg)) ∧ State.reset.rxbuf = [] ∧ State.reset.skip = false ∧
    State.reset.fpt = [] ∧ State.reset.thr = [] ∧ State.reset.out = [] ∧ State.reset.diag = []

/-! ## The whole machine -/

/-- R13, R26, R28, R44, R113: every step of every kind keeps the invariant: RXBUF's shape, SKIP's, the canonical
tables (the model's choice, log 9), every entry's bookkeeping, the widths. -/
def Obligations.StepKeepsTheInvariant : Prop :=
  ∀ s t : State, Inv s → step s = .next t → Inv t

/-- The model's choice (log 9): the spec says maps (R40), the model holds them as lists of key and value with strictly
rising keys. Every step keeps that form, by itself, without the other parts of the invariant. -/
def Obligations.StepKeepsCanonicalStorage : Prop :=
  ∀ s t : State, Memory.wf s → step s = .next t → Memory.wf t

/-- R25: no operation writes a configuration value. -/
def Obligations.ConfigurationIsStatic : Prop :=
  ∀ s t : State, step s = .next t → t.cfg = s.cfg

/-- R30: OUT and DIAG are append-only. -/
def Obligations.StreamsAreAppendOnly : Prop :=
  ∀ s t : State, step s = .next t → (∃ o, t.out = s.out ++ o) ∧ ∃ d, t.diag = s.diag ++ d

/-- R53, R245: an entry leaves FPT, other than by RESET, only together with a record of its PGN on OUT: nothing ages, is
flushed or is evicted. -/
def Obligations.EntriesLeaveOnlyByCompletion : Prop :=
  ∀ (i : Instr) (s t : State) (p : Pgn) (e : FastPacketState), i ≠ .reset → exec i s = .next t →
    s.fpt.get p.toNat = some e → t.fpt.get p.toNat = none →
    ∃ o r, t.out = s.out ++ o ∧ r ∈ o ∧ r.pgn = p

/-- R29, R136 corner cases 1 and 7: no operation but RESET removes a throttle record, and whatever replaces one is at
least MIN_INTERVAL later. -/
def Obligations.ThrottleRecordsOnlyAdvance : Prop :=
  ∀ (i : Instr) (s t : State) (p : Pgn) (a : Nat), i ≠ .reset → exec i s = .next t → s.thr.get p.toNat = some a →
    ∃ b, t.thr.get p.toNat = some b ∧ (b = a ∨ a + s.cfg.minInterval ≤ b)

/-- R196, R198: the ten drop codes have the numbers listed, the logged ones are 1, 2 and 3, and a drop adds its record to
the source's log exactly then. -/
def Obligations.DropCodesAreNumberedAsListed : Prop :=
  [DropCode.xRunt, .xShort, .xDlen, .xFpNostart, .xFpSeq, .xFpDup, .xFpEmpty, .xFpNolen, .nFiltered, .nThrottled].map
      DropCode.number = [1, 2, 3, 4, 5, 6, 7, 8, 16, 17] ∧
    ∀ (s : State) (c : DropCode) (info : Option Pgn),
      (s.dropFrame c info).sourceLog = s.sourceLog ++ if c.number ≤ 3 then [⟨c, info⟩] else []

/-- R175, R195: driven by events of the interface, the machine runs for any number of steps without a fault or a
refusal, and takes one event each step until none is left. -/
def Obligations.EventsAreNeverRefused : Prop :=
  ∀ (k : Nat) (s : State), EventsOnly s →
    ∃ t : State, Sys2Proof.core.run k s = .next t ∧ EventsOnly t ∧ t.input = s.input.drop k

/-- R30: no operation reads OUT or DIAG, nor the events still to come: with other contents there, the outcome is the
same but for them. -/
def Obligations.StreamsAreNeverRead : Prop :=
  ∀ (i : Instr) (s t : State) (o : List OutRecord) (d : List DiagRecord) (l : List Request),
    exec i s = .next t →
    exec i { s with out := o ++ s.out, diag := d ++ s.diag, input := l } =
      .next { t with out := o ++ t.out, diag := d ++ t.diag, input := l }

/-- The model's choice (log 5): no operation reads the result another one left in `ret`: with another one there, either
it leaves its own result all the same, or it leaves `ret` as it was. -/
def Obligations.AnswersAreNeverRead : Prop :=
  ∀ (i : Instr) (s t : State) (r : Ret), exec i s = .next t →
    exec i { s with ret := r } = .next t ∨
      (t.ret = s.ret ∧ exec i { s with ret := r } = .next { t with ret := r })

/-! ## Input that selects nothing, and chunks -/

/-- R69, R92, R93, R96, R135, R146, R177: what a step does with input that selects no operation (that such a request
can wait is the model's choice, log 6, and where the spec has no such input so is what happens, log 8). A chunk of no
bytes, a separator that has not arrived, the throttle asked about a later frame: passed over. A fast-packet frame with
no data: X_FP_EMPTY. A body shorter than the length check lets through: X_RUNT for the candidate `AA 55`, X_SHORT for a
longer one. No step ends in a refusal. -/
def Obligations.InputThatSelectsNoOperation : Prop :=
  ∀ (s : State) (rest : List Request),
    (∀ now, s.input = ⟨.rx now, []⟩ :: rest → step s = .next { s with input := rest }) ∧
    (∀ bytes, s.input = ⟨.separator, bytes⟩ :: rest → s.rxbuf = [] → step s = .next { s with input := rest }) ∧
    (∀ p now bytes data ctl, s.input = ⟨.throttle p now, bytes⟩ :: rest → s.cf.data = data ++ [ctl] →
      ctl.toNat % 32 ≠ 0 → step s = .next { s with input := rest }) ∧
    (∀ l bytes, s.input = ⟨l, bytes⟩ :: rest → (∃ now, l = .control now) ∨ (∃ p now, l = .throttle p now) →
      s.cf.data = [] →
      step s = .next { s with input := rest, diag := s.diag ++ [⟨.xFpEmpty, some s.cf.pgn⟩] }) ∧
    (∀ bytes, s.input = ⟨.body, bytes⟩ :: rest → bytes.length < 5 →
      step s = .next { s with
        input := rest
        diag := s.diag ++ [⟨if bytes = [] then .xRunt else .xShort, none⟩] }) ∧
    ∀ r, step s ≠ .refused r

/-- R177: a chunk that waits is delivered as one RX per byte, in order, one each step, and what waits behind it stays
(that it waits in `input` is the model's choice, log 6). -/
def Obligations.ChunkIsDeliveredByteByByte : Prop :=
  ∀ (s : State) (chunk : List Byte) (now : Nat) (rest : List Request), chunk ≠ [] →
    s.input = ⟨.rx now, chunk⟩ :: rest →
    Sys2Proof.core.run chunk.length s = feedBytes now chunk { s with input := rest }
end

