-- ==== Sys2Proof/Laws/State.lean ====
section
/-! SUPPORT. Sys2Proof/Laws/State.lean: one lemma per field per update of State, true by `rfl`, so that no proof
unfolds an update. -/

namespace Sys2Proof.Machine

variable (s : State)

@[simp] theorem State.pushBytes_cfg (bytes : List Byte) : (s.pushBytes bytes).cfg = s.cfg := rfl
@[simp] theorem State.pushBytes_rxbuf (bytes : List Byte) : (s.pushBytes bytes).rxbuf = s.rxbuf ++ bytes := rfl
@[simp] theorem State.pushBytes_skip (bytes : List Byte) : (s.pushBytes bytes).skip = s.skip := rfl
@[simp] theorem State.pushBytes_fpt (bytes : List Byte) : (s.pushBytes bytes).fpt = s.fpt := rfl
@[simp] theorem State.pushBytes_thr (bytes : List Byte) : (s.pushBytes bytes).thr = s.thr := rfl
@[simp] theorem State.pushBytes_out (bytes : List Byte) : (s.pushBytes bytes).out = s.out := rfl
@[simp] theorem State.pushBytes_diag (bytes : List Byte) : (s.pushBytes bytes).diag = s.diag := rfl
@[simp] theorem State.pushBytes_cf (bytes : List Byte) : (s.pushBytes bytes).cf = s.cf := rfl
@[simp] theorem State.pushBytes_ret (bytes : List Byte) : (s.pushBytes bytes).ret = s.ret := rfl
@[simp] theorem State.pushBytes_input (bytes : List Byte) : (s.pushBytes bytes).input = s.input := rfl

@[simp] theorem State.setRxbuf_cfg (buf : List Byte) : (s.setRxbuf buf).cfg = s.cfg := rfl
@[simp] theorem State.setRxbuf_rxbuf (buf : List Byte) : (s.setRxbuf buf).rxbuf = buf := rfl
@[simp] theorem State.setRxbuf_skip (buf : List Byte) : (s.setRxbuf buf).skip = s.skip := rfl
@[simp] theorem State.setRxbuf_fpt (buf : List Byte) : (s.setRxbuf buf).fpt = s.fpt := rfl
@[simp] theorem State.setRxbuf_thr (buf : List Byte) : (s.setRxbuf buf).thr = s.thr := rfl
@[simp] theorem State.setRxbuf_out (buf : List Byte) : (s.setRxbuf buf).out = s.out := rfl
@[simp] theorem State.setRxbuf_diag (buf : List Byte) : (s.setRxbuf buf).diag = s.diag := rfl
@[simp] theorem State.setRxbuf_cf (buf : List Byte) : (s.setRxbuf buf).cf = s.cf := rfl
@[simp] theorem State.setRxbuf_ret (buf : List Byte) : (s.setRxbuf buf).ret = s.ret := rfl
@[simp] theorem State.setRxbuf_input (buf : List Byte) : (s.setRxbuf buf).input = s.input := rfl

@[simp] theorem State.fptSet_cfg (p : Pgn) (e : FastPacketState) : (s.fptSet p e).cfg = s.cfg := rfl
@[simp] theorem State.fptSet_rxbuf (p : Pgn) (e : FastPacketState) : (s.fptSet p e).rxbuf = s.rxbuf := rfl
@[simp] theorem State.fptSet_skip (p : Pgn) (e : FastPacketState) : (s.fptSet p e).skip = s.skip := rfl
@[simp] theorem State.fptSet_fpt (p : Pgn) (e : FastPacketState) : (s.fptSet p e).fpt = s.fpt.set p.toNat e := rfl
@[simp] theorem State.fptSet_thr (p : Pgn) (e : FastPacketState) : (s.fptSet p e).thr = s.thr := rfl
@[simp] theorem State.fptSet_out (p : Pgn) (e : FastPacketState) : (s.fptSet p e).out = s.out := rfl
@[simp] theorem State.fptSet_diag (p : Pgn) (e : FastPacketState) : (s.fptSet p e).diag = s.diag := rfl
@[simp] theorem State.fptSet_cf (p : Pgn) (e : FastPacketState) : (s.fptSet p e).cf = s.cf := rfl
@[simp] theorem State.fptSet_ret (p : Pgn) (e : FastPacketState) : (s.fptSet p e).ret = s.ret := rfl
@[simp] theorem State.fptSet_input (p : Pgn) (e : FastPacketState) : (s.fptSet p e).input = s.input := rfl

@[simp] theorem State.fptClear_cfg (p : Pgn) : (s.fptClear p).cfg = s.cfg := rfl
@[simp] theorem State.fptClear_rxbuf (p : Pgn) : (s.fptClear p).rxbuf = s.rxbuf := rfl
@[simp] theorem State.fptClear_skip (p : Pgn) : (s.fptClear p).skip = s.skip := rfl
@[simp] theorem State.fptClear_fpt (p : Pgn) : (s.fptClear p).fpt = s.fpt.erase p.toNat := rfl
@[simp] theorem State.fptClear_thr (p : Pgn) : (s.fptClear p).thr = s.thr := rfl
@[simp] theorem State.fptClear_out (p : Pgn) : (s.fptClear p).out = s.out := rfl
@[simp] theorem State.fptClear_diag (p : Pgn) : (s.fptClear p).diag = s.diag := rfl
@[simp] theorem State.fptClear_cf (p : Pgn) : (s.fptClear p).cf = s.cf := rfl
@[simp] theorem State.fptClear_ret (p : Pgn) : (s.fptClear p).ret = s.ret := rfl
@[simp] theorem State.fptClear_input (p : Pgn) : (s.fptClear p).input = s.input := rfl

@[simp] theorem State.thrSet_cfg (p : Pgn) (now : Nat) : (s.thrSet p now).cfg = s.cfg := rfl
@[simp] theorem State.thrSet_rxbuf (p : Pgn) (now : Nat) : (s.thrSet p now).rxbuf = s.rxbuf := rfl
@[simp] theorem State.thrSet_skip (p : Pgn) (now : Nat) : (s.thrSet p now).skip = s.skip := rfl
@[simp] theorem State.thrSet_fpt (p : Pgn) (now : Nat) : (s.thrSet p now).fpt = s.fpt := rfl
@[simp] theorem State.thrSet_thr (p : Pgn) (now : Nat) : (s.thrSet p now).thr = s.thr.set p.toNat now := rfl
@[simp] theorem State.thrSet_out (p : Pgn) (now : Nat) : (s.thrSet p now).out = s.out := rfl
@[simp] theorem State.thrSet_diag (p : Pgn) (now : Nat) : (s.thrSet p now).diag = s.diag := rfl
@[simp] theorem State.thrSet_cf (p : Pgn) (now : Nat) : (s.thrSet p now).cf = s.cf := rfl
@[simp] theorem State.thrSet_ret (p : Pgn) (now : Nat) : (s.thrSet p now).ret = s.ret := rfl
@[simp] theorem State.thrSet_input (p : Pgn) (now : Nat) : (s.thrSet p now).input = s.input := rfl

@[simp] theorem State.setCf_cfg (cf : CanFrame) : (s.setCf cf).cfg = s.cfg := rfl
@[simp] theorem State.setCf_rxbuf (cf : CanFrame) : (s.setCf cf).rxbuf = s.rxbuf := rfl
@[simp] theorem State.setCf_skip (cf : CanFrame) : (s.setCf cf).skip = s.skip := rfl
@[simp] theorem State.setCf_fpt (cf : CanFrame) : (s.setCf cf).fpt = s.fpt := rfl
@[simp] theorem State.setCf_thr (cf : CanFrame) : (s.setCf cf).thr = s.thr := rfl
@[simp] theorem State.setCf_out (cf : CanFrame) : (s.setCf cf).out = s.out := rfl
@[simp] theorem State.setCf_diag (cf : CanFrame) : (s.setCf cf).diag = s.diag := rfl
@[simp] theorem State.setCf_cf (cf : CanFrame) : (s.setCf cf).cf = cf := rfl
@[simp] theorem State.setCf_ret (cf : CanFrame) : (s.setCf cf).ret = s.ret := rfl
@[simp] theorem State.setCf_input (cf : CanFrame) : (s.setCf cf).input = s.input := rfl

@[simp] theorem State.clearCf_cfg : s.clearCf.cfg = s.cfg := rfl
@[simp] theorem State.clearCf_rxbuf : s.clearCf.rxbuf = s.rxbuf := rfl
@[simp] theorem State.clearCf_skip : s.clearCf.skip = s.skip := rfl
@[simp] theorem State.clearCf_fpt : s.clearCf.fpt = s.fpt := rfl
@[simp] theorem State.clearCf_thr : s.clearCf.thr = s.thr := rfl
@[simp] theorem State.clearCf_out : s.clearCf.out = s.out := rfl
@[simp] theorem State.clearCf_diag : s.clearCf.diag = s.diag := rfl
@[simp] theorem State.clearCf_cf : s.clearCf.cf = .atRest := rfl
@[simp] theorem State.clearCf_ret : s.clearCf.ret = s.ret := rfl
@[simp] theorem State.clearCf_input : s.clearCf.input = s.input := rfl

@[simp] theorem State.emit_cfg (p : Pgn) (src : Byte) (payload : List Byte) : (s.emit p src payload).cfg = s.cfg := rfl
@[simp] theorem State.emit_rxbuf (p : Pgn) (src : Byte) (payload : List Byte) : (s.emit p src payload).rxbuf = s.rxbuf := rfl
@[simp] theorem State.emit_skip (p : Pgn) (src : Byte) (payload : List Byte) : (s.emit p src payload).skip = s.skip := rfl
@[simp] theorem State.emit_fpt (p : Pgn) (src : Byte) (payload : List Byte) : (s.emit p src payload).fpt = s.fpt := rfl
@[simp] theorem State.emit_thr (p : Pgn) (src : Byte) (payload : List Byte) : (s.emit p src payload).thr = s.thr := rfl
@[simp] theorem State.emit_out (p : Pgn) (src : Byte) (payload : List Byte) : (s.emit p src payload).out = s.out ++ [{ pgn := p, source := src, payload := payload }] := rfl
@[simp] theorem State.emit_diag (p : Pgn) (src : Byte) (payload : List Byte) : (s.emit p src payload).diag = s.diag := rfl
@[simp] theorem State.emit_cf (p : Pgn) (src : Byte) (payload : List Byte) : (s.emit p src payload).cf = s.cf := rfl
@[simp] theorem State.emit_ret (p : Pgn) (src : Byte) (payload : List Byte) : (s.emit p src payload).ret = s.ret := rfl
@[simp] theorem State.emit_input (p : Pgn) (src : Byte) (payload : List Byte) : (s.emit p src payload).input = s.input := rfl

@[simp] theorem State.dropFrame_cfg (code : DropCode) (info : Option Pgn) : (s.dropFrame code info).cfg = s.cfg := rfl
@[simp] theorem State.dropFrame_rxbuf (code : DropCode) (info : Option Pgn) : (s.dropFrame code info).rxbuf = s.rxbuf := rfl
@[simp] theorem State.dropFrame_skip (code : DropCode) (info : Option Pgn) : (s.dropFrame code info).skip = s.skip := rfl
@[simp] theorem State.dropFrame_fpt (code : DropCode) (info : Option Pgn) : (s.dropFrame code info).fpt = s.fpt := rfl
@[simp] theorem State.dropFrame_thr (code : DropCode) (info : Option Pgn) : (s.dropFrame code info).thr = s.thr := rfl
@[simp] theorem State.dropFrame_out (code : DropCode) (info : Option Pgn) : (s.dropFrame code info).out = s.out := rfl
@[simp] theorem State.dropFrame_diag (code : DropCode) (info : Option Pgn) : (s.dropFrame code info).diag = s.diag ++ [{ code := code, pgn := info }] := rfl
@[simp] theorem State.dropFrame_cf (code : DropCode) (info : Option Pgn) : (s.dropFrame code info).cf = s.cf := rfl
@[simp] theorem State.dropFrame_ret (code : DropCode) (info : Option Pgn) : (s.dropFrame code info).ret = s.ret := rfl
@[simp] theorem State.dropFrame_input (code : DropCode) (info : Option Pgn) : (s.dropFrame code info).input = s.input := rfl

@[simp] theorem State.setSkip_cfg (b : Bool) : (s.setSkip b).cfg = s.cfg := rfl
@[simp] theorem State.setSkip_rxbuf (b : Bool) : (s.setSkip b).rxbuf = s.rxbuf := rfl
@[simp] theorem State.setSkip_skip (b : Bool) : (s.setSkip b).skip = b := rfl
@[simp] theorem State.setSkip_fpt (b : Bool) : (s.setSkip b).fpt = s.fpt := rfl
@[simp] theorem State.setSkip_thr (b : Bool) : (s.setSkip b).thr = s.thr := rfl
@[simp] theorem State.setSkip_out (b : Bool) : (s.setSkip b).out = s.out := rfl
@[simp] theorem State.setSkip_diag (b : Bool) : (s.setSkip b).diag = s.diag := rfl
@[simp] theorem State.setSkip_cf (b : Bool) : (s.setSkip b).cf = s.cf := rfl
@[simp] theorem State.setSkip_ret (b : Bool) : (s.setSkip b).ret = s.ret := rfl
@[simp] theorem State.setSkip_input (b : Bool) : (s.setSkip b).input = s.input := rfl

@[simp] theorem runReset_cfg : (runReset s).cfg = s.cfg := rfl
@[simp] theorem runReset_rxbuf : (runReset s).rxbuf = [] := rfl
@[simp] theorem runReset_skip : (runReset s).skip = false := rfl
@[simp] theorem runReset_fpt : (runReset s).fpt = [] := rfl
@[simp] theorem runReset_thr : (runReset s).thr = [] := rfl
@[simp] theorem runReset_out : (runReset s).out = s.out := rfl
@[simp] theorem runReset_diag : (runReset s).diag = s.diag := rfl
@[simp] theorem runReset_cf : (runReset s).cf = .atRest := rfl
@[simp] theorem runReset_ret : (runReset s).ret = s.ret := rfl
@[simp] theorem runReset_input : (runReset s).input = s.input := rfl

@[simp] theorem CanFrame.atRest_pgn : CanFrame.atRest.pgn = 0 := rfl
@[simp] theorem CanFrame.atRest_source : CanFrame.atRest.source = 0 := rfl
@[simp] theorem CanFrame.atRest_data : CanFrame.atRest.data = [] := rfl

end Sys2Proof.Machine
end

