-- ==== Sys2Proof/Laws/Bits.lean ====
section
/-! SUPPORT. Sys2Proof/Laws/Bits.lean: the bit fields of a frame in arithmetic, and the fields of an encoded frame. -/

namespace Sys2Proof

theorem toNat_append_eq {n m : Nat} (x : BitVec n) (y : BitVec m) :
    (x ++ y).toNat = x.toNat * 2 ^ m + y.toNat := by
  rw [BitVec.toNat_append, ← Nat.shiftLeft_add_eq_or_of_lt y.isLt, Nat.shiftLeft_eq]

theorem dataLength_eq (t : Byte) : dataLength t = t.toNat % 16 := by
  simp [dataLength, BitVec.extractLsb'_toNat]

theorem dataLength_lt (t : Byte) : dataLength t < 16 := by
  rw [dataLength_eq]; omega

/-! ## The control byte (R66) -/

theorem controlSeq_toNat (c : Byte) : (controlSeq c).toNat = c.toNat / 32 := by
  have := c.isLt
  simp only [controlSeq, BitVec.extractLsb'_toNat, Nat.shiftRight_eq_div_pow]
  omega

theorem controlFc_toNat (c : Byte) : (controlFc c).toNat = c.toNat % 32 := by
  simp [controlFc, BitVec.extractLsb'_toNat]

theorem controlFc_eq_zero_iff (c : Byte) : controlFc c = 0 ↔ c.toNat % 32 = 0 := by
  rw [← controlFc_toNat, ← BitVec.toNat_inj]; simp

theorem controlSeq_eq (c : Byte) : controlSeq c = BitVec.ofNat 3 (c.toNat / 32) := by
  have := c.isLt
  apply BitVec.eq_of_toNat_eq
  rw [controlSeq_toNat, BitVec.toNat_ofNat]; omega

theorem controlFc_eq (c : Byte) : controlFc c = BitVec.ofNat 5 (c.toNat % 32) := by
  apply BitVec.eq_of_toNat_eq
  rw [controlFc_toNat, BitVec.toNat_ofNat]; omega

theorem controlByte_toNat (seq : BitVec 3) (fc : BitVec 5) :
    (controlByte seq fc).toNat = seq.toNat * 32 + fc.toNat := toNat_append_eq seq fc

@[simp] theorem controlSeq_controlByte (seq : BitVec 3) (fc : BitVec 5) : controlSeq (controlByte seq fc) = seq := by
  apply BitVec.eq_of_toNat_eq
  have := fc.isLt
  rw [controlSeq_toNat, controlByte_toNat]; omega

@[simp] theorem controlFc_controlByte (seq : BitVec 3) (fc : BitVec 5) : controlFc (controlByte seq fc) = fc := by
  apply BitVec.eq_of_toNat_eq
  have := fc.isLt
  rw [controlFc_toNat, controlByte_toNat]; omega

/-! ## The frame id (R41, R64) -/

theorem frameIdInt_eq_append (i0 i1 i2 i3 : Byte) :
    frameIdInt i0 i1 i2 i3 = i3 ++ (i2 ++ (i1 ++ i0 : BitVec 16) : BitVec 24) := by
  apply BitVec.eq_of_getLsbD_eq
  intro i hi
  simp only [frameIdInt, BitVec.getLsbD_or, BitVec.getLsbD_shiftLeft, BitVec.getLsbD_append,
    BitVec.truncate_eq_setWidth, BitVec.getLsbD_setWidth, hi, decide_true, Bool.true_and]
  by_cases h0 : i < 8
  · have : i < 16 := by omega
    have : i < 24 := by omega
    simp [*]
  · by_cases h1 : i < 16
    · have : i < 24 := by omega
      have : i - 8 < 32 := by omega
      simp [*, BitVec.getLsbD_of_ge i0 i (by omega)]
    · by_cases h2 : i < 24
      · have : i - 16 < 32 := by omega
        simp [*, BitVec.getLsbD_of_ge i0 i (by omega), BitVec.getLsbD_of_ge i1 (i - 8) (by omega)]
      · have : i - 24 < 32 := by omega
        simp [*, BitVec.getLsbD_of_ge i0 i (by omega), BitVec.getLsbD_of_ge i1 (i - 8) (by omega),
          BitVec.getLsbD_of_ge i2 (i - 16) (by omega)]

/-- The frame id is the little-endian sum of its four bytes (R41). -/
theorem frameIdInt_toNat (i0 i1 i2 i3 : Byte) :
    (frameIdInt i0 i1 i2 i3).toNat = i0.toNat + 256 * i1.toNat + 65536 * i2.toNat + 16777216 * i3.toNat := by
  rw [frameIdInt_eq_append]
  have e1 := toNat_append_eq i1 i0
  have e2 := toNat_append_eq i2 (i1 ++ i0 : BitVec 16)
  have e3 := toNat_append_eq i3 (i2 ++ (i1 ++ i0 : BitVec 16) : BitVec 24)
  refine e3.trans ?_
  omega

theorem pgnField_toNat (id : BitVec 32) : (pgnField id).toNat = id.toNat / 256 % 262144 := by
  simp only [pgnField, BitVec.truncate_eq_setWidth, BitVec.toNat_setWidth, BitVec.extractLsb'_toNat,
    Nat.shiftRight_eq_div_pow]
  omega

/-- Bits 31:18 of a decoded PGN are zero (R113). -/
theorem pgnField_lt (id : BitVec 32) : (pgnField id).toNat < pgnCount := by
  rw [pgnField_toNat]; exact Nat.mod_lt _ (by decide)

theorem sourceField_toNat (id : BitVec 32) : (sourceField id).toNat = id.toNat % 256 := by
  simp [sourceField, BitVec.extractLsb'_toNat]

/-! ## PGN operands (R113) -/

theorem pgnOfField_toNat (p : BitVec 18) : (pgnOfField p).toNat = p.toNat := by
  have := p.isLt
  simp only [pgnOfField, BitVec.truncate_eq_setWidth, BitVec.toNat_setWidth]
  omega

theorem pgnOfField_lt (p : BitVec 18) : (pgnOfField p).toNat < pgnCount := by
  rw [pgnOfField_toNat]; exact p.isLt

/-- The 18-bit field of a PGN whose upper bits are zero is the whole PGN. -/
theorem pgnOfField_extract {p : Pgn} (h : p.toNat < pgnCount) : pgnOfField (p.extractLsb' 0 18) = p := by
  apply BitVec.eq_of_toNat_eq
  rw [pgnOfField_toNat, BitVec.extractLsb'_toNat]
  exact Nat.mod_eq_of_lt h

/-- Three bytes of a PGN give its 18-bit field back. -/
theorem pgnOfBytes_extract (p : Pgn) :
    pgnOfBytes [p.extractLsb' 16 8, p.extractLsb' 8 8, p.extractLsb' 0 8] = p.extractLsb' 0 18 := by
  apply BitVec.eq_of_getLsbD_eq
  intro i hi
  have h32 : i < 32 := by omega
  simp only [pgnOfBytes, List.foldl, BitVec.getLsbD_or, BitVec.getLsbD_shiftLeft, BitVec.getLsbD_extractLsb',
    BitVec.truncate_eq_setWidth, BitVec.getLsbD_setWidth, hi, decide_true, Bool.true_and, Nat.zero_add]
  by_cases h0 : i < 8
  · simp [h0]
  · by_cases h1 : i < 16
    · have : i - 8 < 8 := by omega
      have e : 8 + (i - 8) = i := by omega
      simp [h0, this, e, show i - 8 < 18 by omega]
    · have h2 : i - 8 - 8 < 8 := by omega
      have e : 16 + (i - 8 - 8) = i := by omega
      simp [h0, h2, e, show ¬ i - 8 < 8 by omega, show i - 8 < 18 by omega, show i - 8 - 8 < 18 by omega]

/-! ## The fields of an encoded physical frame -/

theorem Wire.typeByte_toNat (f : Wire) : f.typeByte.toNat = f.typeHigh.toNat * 16 + f.data.length % 16 := by
  have := toNat_append_eq f.typeHigh (BitVec.ofNat 4 f.data.length)
  rwa [BitVec.toNat_ofNat] at this

theorem Wire.dataLength_typeByte (f : Wire) (h : f.data.length ≤ 8) : dataLength f.typeByte = f.data.length := by
  rw [dataLength_eq, Wire.typeByte_toNat]; omega

theorem Wire.frameId_toNat (f : Wire) :
    f.frameId.toNat = (f.idHigh.toNat * 262144 + f.pgn.toNat) * 256 + f.source.toNat := by
  have e1 := toNat_append_eq f.idHigh f.pgn
  have e2 := toNat_append_eq (f.idHigh ++ f.pgn) f.source
  refine e2.trans ?_
  omega

/-- The four id bytes of an encoded frame give its frame id back (R41, R64). -/
theorem frameIdInt_extract (id : BitVec 32) :
    frameIdInt (id.extractLsb' 0 8) (id.extractLsb' 8 8) (id.extractLsb' 16 8) (id.extractLsb' 24 8) = id := by
  apply BitVec.eq_of_toNat_eq
  have := id.isLt
  rw [frameIdInt_toNat]
  simp only [BitVec.extractLsb'_toNat, Nat.shiftRight_eq_div_pow]
  omega

theorem Wire.sourceField_frameId (f : Wire) : sourceField f.frameId = f.source := by
  apply BitVec.eq_of_toNat_eq
  have := f.source.isLt
  rw [sourceField_toNat, Wire.frameId_toNat]; omega

theorem Wire.toNat_pgn_zeroExtend (p : BitVec 18) : (p.zeroExtend 32).toNat = p.toNat := by
  have := p.isLt
  simp only [BitVec.truncate_eq_setWidth, BitVec.toNat_setWidth]
  omega

theorem Wire.pgnField_frameId (f : Wire) : pgnField f.frameId = f.pgn.zeroExtend 32 := by
  apply BitVec.eq_of_toNat_eq
  have := f.pgn.isLt
  have := f.source.isLt
  rw [pgnField_toNat, Wire.frameId_toNat, Wire.toNat_pgn_zeroExtend]; omega

theorem Wire.length_body (f : Wire) : f.body.length = 5 + f.data.length := by
  simp [Wire.body]; omega

end Sys2Proof
end

