-- ==== Sys2Proof/Laws/Framer.lean ====
section
/-! SUPPORT. Sys2Proof/Laws/Framer.lean: everything the framer can do, said once: what DELIM cuts, what each framer
operation leaves alone, what it leaves when it asks for more data, and that it consumes bytes otherwise. -/

namespace Sys2Proof.Machine

open Sys2Proof.Safety

/-! ## What FRM.DELIM cuts (R91) -/

theorem takeWhile_append_stop {p : Byte → Bool} {l : List Byte} {x : Byte} {r : List Byte}
    (hl : ∀ y ∈ l, p y = true) (hx : p x = false) : (l ++ x :: r).takeWhile p = l := by
  induction l with
  | nil => simp [hx]
  | cons y l ih =>
    simp [hl y (by simp), ih fun z hz => hl z (by simp [hz])]

theorem takeWhile_all {p : Byte → Bool} {l : List Byte} (hl : ∀ y ∈ l, p y = true) : l.takeWhile p = l := by
  induction l with
  | nil => rfl
  | cons y l ih => simp [hl y (by simp), ih fun z hz => hl z (by simp [hz])]

theorem dropWhile_append_stop {p : Byte → Bool} {l : List Byte} {x : Byte} {r : List Byte}
    (hl : ∀ y ∈ l, p y = true) (hx : p x = false) : (l ++ x :: r).dropWhile p = x :: r := by
  induction l with
  | nil => simp [hx]
  | cons y l ih => simp [hl y (by simp), ih fun z hz => hl z (by simp [hz])]

theorem dropWhile_all {p : Byte → Bool} {l : List Byte} (hl : ∀ y ∈ l, p y = true) : l.dropWhile p = [] := by
  induction l with
  | nil => rfl
  | cons y l ih => simp [hl y (by simp), ih fun z hz => hl z (by simp [hz])]

theorem bne_of_not_mem {x : Byte} {l : List Byte} (h : x ∉ l) : ∀ y ∈ l, (y != x) = true := by
  intro y hy
  simp only [bne_iff_ne, ne_eq]
  rintro rfl
  exact h hy

theorem cutDelim_no_start {buf : List Byte} (h : 0xAA ∉ buf) : cutDelim buf = (none, []) := by
  have : buf.dropWhile (· != startMarker) = [] := dropWhile_all (bne_of_not_mem h)
  simp [cutDelim, this]

theorem cutDelim_no_end {pre mid : List Byte} (hp : 0xAA ∉ pre) (hm : 0x55 ∉ mid) :
    cutDelim (pre ++ 0xAA :: mid) = (none, 0xAA :: mid) := by
  have h1 : (pre ++ 0xAA :: mid).dropWhile (· != startMarker) = 0xAA :: mid :=
    dropWhile_append_stop (bne_of_not_mem hp) (by decide)
  have h2 : (0xAA :: mid).takeWhile (· != endMarker) = 0xAA :: mid :=
    takeWhile_all (bne_of_not_mem (by simpa [endMarker] using hm))
  simp only [cutDelim, h1, h2, List.drop_length]

theorem cutDelim_found {pre mid post : List Byte} (hp : 0xAA ∉ pre) (hm : 0x55 ∉ mid) :
    cutDelim (pre ++ 0xAA :: (mid ++ 0x55 :: post)) = (some (0xAA :: mid ++ [0x55]), post) := by
  have h1 : (pre ++ 0xAA :: (mid ++ 0x55 :: post)).dropWhile (· != startMarker) = (0xAA :: mid) ++ 0x55 :: post :=
    dropWhile_append_stop (bne_of_not_mem hp) (by decide)
  have h2 : ((0xAA :: mid) ++ 0x55 :: post).takeWhile (· != endMarker) = 0xAA :: mid :=
    takeWhile_append_stop (bne_of_not_mem (by simpa [endMarker] using hm)) (by decide)
  simp only [cutDelim, h1, h2, List.drop_left]

/-- Every list splits at the first occurrence of a byte, or does not hold it. -/
theorem split_at_first (x : Byte) (l : List Byte) : x ∉ l ∨ ∃ a b, l = a ++ x :: b ∧ x ∉ a := by
  induction l with
  | nil => exact .inl (by simp)
  | cons y l ih =>
    by_cases hy : x = y
    · exact .inr ⟨[], l, by simp [hy], by simp⟩
    · rcases ih with h | ⟨a, b, rfl, ha⟩
      · exact .inl (by simp [hy, h])
      · exact .inr ⟨y :: a, b, by simp, by simp [hy, ha]⟩

/-- The three contents of RXBUF that R91 tells apart. -/
theorem delim_content (buf : List Byte) :
    0xAA ∉ buf ∨
    (∃ pre mid, buf = pre ++ 0xAA :: mid ∧ 0xAA ∉ pre ∧ 0x55 ∉ mid) ∨
    ∃ pre mid post, buf = pre ++ 0xAA :: (mid ++ 0x55 :: post) ∧ 0xAA ∉ pre ∧ 0x55 ∉ mid := by
  rcases split_at_first 0xAA buf with h | ⟨pre, tail, rfl, hp⟩
  · exact .inl h
  · rcases split_at_first 0x55 tail with h | ⟨mid, post, rfl, hm⟩
    · exact .inr (.inl ⟨pre, tail, rfl, hp, h⟩)
    · exact .inr (.inr ⟨pre, mid, post, rfl, hp, hm⟩)

/-- The length check never asks for more data. -/
theorem delimCheck_ne_needMoreData (w : List Byte) : delimCheck w ≠ .needMoreData := by
  unfold delimCheck
  repeat' split
  all_goals simp

/-- A candidate that passes the check is handed on without its markers (R93). -/
theorem delimCheck_frame {mid body : List Byte} (h : delimCheck (0xAA :: mid ++ [0x55]) = .frame body) :
    body = mid ∧ 5 ≤ mid.length ∧ dataLength (mid.getD 0 0) ≤ 8 ∧ 5 + dataLength (mid.getD 0 0) ≤ mid.length := by
  have e : (0xAA :: mid ++ [0x55] : List Byte).getD 1 0 = (mid ++ [0x55]).getD 0 0 := rfl
  have hd : ((0xAA :: mid ++ [0x55] : List Byte).drop 1).dropLast = mid := by simp
  have hl : (0xAA :: mid ++ [0x55] : List Byte).length = mid.length + 2 := by simp
  unfold delimCheck at h
  rw [hd, hl, e] at h
  split at h
  · cases h
  · split at h
    · cases h
    · rename_i h7
      have hm : (mid ++ [0x55]).getD 0 0 = mid.getD 0 0 := by
        cases mid with
        | nil => simp at h7
        | cons y m => rfl
      rw [hm] at h
      split at h
      · cases h
      · split at h
        · cases h
        · cases h
          refine ⟨rfl, ?_, ?_, ?_⟩ <;> omega

/-- FRM.DELIM, said once. -/
theorem runDelim_cases (s : State) :
    (0xAA ∉ s.rxbuf ∧ runDelim s = (.needMoreData, s.setRxbuf [])) ∨
    (∃ pre mid, s.rxbuf = pre ++ 0xAA :: mid ∧ 0xAA ∉ pre ∧ 0x55 ∉ mid ∧
      runDelim s = (.needMoreData, s.setRxbuf (0xAA :: mid))) ∨
    ∃ pre mid post, s.rxbuf = pre ++ 0xAA :: (mid ++ 0x55 :: post) ∧ 0xAA ∉ pre ∧ 0x55 ∉ mid ∧
      ((∃ code, delimCheck (0xAA :: mid ++ [0x55]) = .dropped code ∧
          runDelim s = (.dropped code, (s.setRxbuf post).dropFrame code none)) ∨
        (delimCheck (0xAA :: mid ++ [0x55]) = .frame mid ∧ runDelim s = (.frame mid, s.setRxbuf post))) := by
  rcases delim_content s.rxbuf with h | ⟨pre, mid, h, hp, hm⟩ | ⟨pre, mid, post, h, hp, hm⟩
  · exact .inl ⟨h, by simp [runDelim, cutDelim_no_start h]⟩
  · exact .inr (.inl ⟨pre, mid, h, hp, hm, by rw [runDelim, h, cutDelim_no_end hp hm]⟩)
  · refine .inr (.inr ⟨pre, mid, post, h, hp, hm, ?_⟩)
    rw [runDelim, h, cutDelim_found hp hm]
    cases hc : delimCheck (0xAA :: mid ++ [0x55]) with
    | needMoreData => exact absurd hc (delimCheck_ne_needMoreData _)
    | dropped code => exact .inl ⟨code, rfl, by simp only [hc]⟩
    | frame body =>
      obtain ⟨rfl, -⟩ := delimCheck_frame hc
      exact .inr ⟨rfl, by simp only [hc]⟩

/-! ## FRM.FIXED and FRM.SKIP (R96, R97) -/

@[simp] theorem runSkip_rxbuf (s : State) : (runSkip s).rxbuf = s.rxbuf.drop 1 := rfl
@[simp] theorem runSkip_skip (s : State) : (runSkip s).skip = false := rfl

theorem separatorReady_iff (s : State) : s.separatorReady = true ↔ s.skip = true ∧ 1 ≤ s.rxbuf.length := by
  simp [State.separatorReady]

/-- After the separator step, SKIP is still set only with RXBUF empty. -/
theorem skipIfReady_skip {s : State} (h : (skipIfReady s).skip = true) :
    skipIfReady s = s ∧ s.skip = true ∧ s.rxbuf = [] := by
  unfold skipIfReady at h ⊢
  split at h
  · simp at h
  · rename_i hr
    rw [separatorReady_iff] at hr
    refine ⟨if_neg (by rw [separatorReady_iff]; exact hr), h, ?_⟩
    have : ¬ 1 ≤ s.rxbuf.length := fun hl => hr ⟨h, hl⟩
    exact List.length_eq_zero_iff.1 (by omega)

theorem skipIfReady_of_not_skip {s : State} (h : s.skip = false) : skipIfReady s = s := by
  simp [skipIfReady, State.separatorReady, h]

theorem skipIfReady_length (s : State) : (skipIfReady s).rxbuf.length ≤ s.rxbuf.length := by
  unfold skipIfReady
  split
  · simp
  · exact le_refl _

/-- FRM.FIXED, said once. -/
theorem runFixed_cases (s : State) :
    ((skipIfReady s).skip = true ∧ runFixed s = (.needMoreData, s) ∧ s.skip = true ∧ s.rxbuf = []) ∨
    ((skipIfReady s).skip = false ∧ (skipIfReady s).rxbuf.length < 13 ∧
      runFixed s = (.needMoreData, skipIfReady s)) ∨
    ((skipIfReady s).skip = false ∧ 13 ≤ (skipIfReady s).rxbuf.length ∧
      runFixed s = (.frame ((skipIfReady s).rxbuf.take 13),
        skipIfReady (((skipIfReady s).setRxbuf ((skipIfReady s).rxbuf.drop 13)).setSkip true))) := by
  unfold runFixed cutFixed fixedLength
  by_cases h : (skipIfReady s).skip = true
  · obtain ⟨h1, h2, h3⟩ := skipIfReady_skip h
    exact .inl ⟨h, by rw [if_pos h, h1], h2, h3⟩
  · rw [if_neg h]
    simp only [Bool.not_eq_true] at h
    split
    · exact .inr (.inl ⟨h, by omega, rfl⟩)
    · exact .inr (.inr ⟨h, by omega, rfl⟩)

/-! ## What a framer operation leaves alone (R99) -/

/-- Two states that differ in RXBUF, SKIP and DIAG only. -/
structure FramerFrame (s t : State) : Prop where
  cfg : t.cfg = s.cfg
  fpt : t.fpt = s.fpt
  thr : t.thr = s.thr
  out : t.out = s.out
  cf : t.cf = s.cf
  ret : t.ret = s.ret
  input : t.input = s.input

theorem framerFrame_skipIfReady (s : State) : FramerFrame s (skipIfReady s) := by
  unfold skipIfReady
  split <;> exact ⟨rfl, rfl, rfl, rfl, rfl, rfl, rfl⟩

theorem framerFrame_runDelim (s : State) : FramerFrame s (runDelim s).2 := by
  rcases runDelim_cases s with ⟨-, h⟩ | ⟨_, _, -, -, -, h⟩ | ⟨_, _, _, -, -, -, ⟨_, -, h⟩ | ⟨-, h⟩⟩ <;> rw [h] <;>
    exact ⟨rfl, rfl, rfl, rfl, rfl, rfl, rfl⟩

theorem framerFrame_runFixed (s : State) : FramerFrame s (runFixed s).2 := by
  rcases runFixed_cases s with ⟨-, h, -, -⟩ | ⟨-, -, h⟩ | ⟨-, -, h⟩ <;> rw [h]
  · exact ⟨rfl, rfl, rfl, rfl, rfl, rfl, rfl⟩
  · exact framerFrame_skipIfReady s
  · have h1 := framerFrame_skipIfReady s
    have h2 := framerFrame_skipIfReady (((skipIfReady s).setRxbuf ((skipIfReady s).rxbuf.drop 13)).setSkip true)
    exact ⟨h2.cfg.trans h1.cfg, h2.fpt.trans h1.fpt, h2.thr.trans h1.thr, h2.out.trans h1.out, h2.cf.trans h1.cf,
      h2.ret.trans h1.ret, h2.input.trans h1.input⟩

theorem framerFrame_runFramer (s : State) : FramerFrame s (runFramer s).2 := by
  unfold runFramer
  split
  · exact framerFrame_runDelim s
  · exact framerFrame_runFixed s

/-- FRM.DELIM does not touch SKIP (R94). -/
theorem runDelim_skip (s : State) : (runDelim s).2.skip = s.skip := by
  rcases runDelim_cases s with ⟨-, h⟩ | ⟨_, _, -, -, -, h⟩ | ⟨_, _, _, -, -, -, ⟨_, -, h⟩ | ⟨-, h⟩⟩ <;> rw [h] <;> rfl

/-- The framer appends to DIAG its drop and nothing else (R99). -/
theorem runFramer_diag (s : State) : (runFramer s).2.diag =
    match (runFramer s).1 with
    | .dropped code => s.diag ++ [⟨code, none⟩]
    | _ => s.diag := by
  have hs : ∀ u : State, (skipIfReady u).diag = u.diag := fun u => by unfold skipIfReady; split <;> rfl
  unfold runFramer
  split
  · rcases runDelim_cases s with ⟨-, h⟩ | ⟨_, _, -, -, -, h⟩ | ⟨_, _, _, -, -, -, ⟨_, -, h⟩ | ⟨-, h⟩⟩ <;> rw [h] <;> rfl
  · rcases runFixed_cases s with ⟨-, h, -, -⟩ | ⟨-, -, h⟩ | ⟨-, -, h⟩ <;> rw [h]
    · exact hs s
    · exact (hs _).trans (hs s)

/-! ## Waiting and consuming (R176 corner case 4) -/

/-- A framer that has asked for more data asks again and changes nothing. -/
theorem runFramer_again {s : State} (h : (runFramer s).1 = .needMoreData) :
    runFramer (runFramer s).2 = (.needMoreData, (runFramer s).2) := by
  have hcfg := (framerFrame_runFramer s).cfg
  unfold runFramer at h hcfg ⊢
  cases hm : s.cfg.mode with
  | delim =>
    rw [hm] at h hcfg
    simp only at h hcfg ⊢
    rw [hcfg, hm]
    simp only
    rcases runDelim_cases s with ⟨-, e⟩ | ⟨_, mid, -, -, hmid, e⟩ | ⟨_, _, _, -, -, -, ⟨_, -, e⟩ | ⟨-, e⟩⟩ <;> rw [e] at h ⊢
    · simp only [runDelim, State.setRxbuf_rxbuf, cutDelim_no_start (List.not_mem_nil)]
      rfl
    · have : cutDelim (0xAA :: mid) = (none, 0xAA :: mid) := cutDelim_no_end (pre := []) (by simp) hmid
      simp only [runDelim, State.setRxbuf_rxbuf, this]
      rfl
    · cases h
    · cases h
  | fixed =>
    rw [hm] at h hcfg
    simp only at h hcfg ⊢
    rw [hcfg, hm]
    simp only
    rcases runFixed_cases s with ⟨-, e, -, -⟩ | ⟨h1, h2, e⟩ | ⟨-, -, e⟩
    · rw [e]; exact e
    · rw [e]
      have h3 : skipIfReady (skipIfReady s) = skipIfReady s := skipIfReady_of_not_skip h1
      simp only [runFixed, h3, h1, cutFixed, fixedLength, if_pos h2]
      rfl
    · rw [e] at h; cases h

/-- A framer that does not ask for more data has taken at least two bytes out of RXBUF. -/
theorem runFramer_consumes {s : State} (h : (runFramer s).1 ≠ .needMoreData) :
    (runFramer s).2.rxbuf.length + 2 ≤ s.rxbuf.length := by
  unfold runFramer at h ⊢
  split at h
  · rcases runDelim_cases s with ⟨-, e⟩ | ⟨_, _, -, -, -, e⟩ | ⟨_, _, _, hb, -, -, ⟨_, -, e⟩ | ⟨-, e⟩⟩ <;> rw [e] at h ⊢
    · simp at h
    · simp at h
    · simp [hb]; omega
    · simp [hb]; omega
  · rcases runFixed_cases s with ⟨-, e, -, -⟩ | ⟨-, -, e⟩ | ⟨-, hl, e⟩ <;> rw [e] at h ⊢
    · simp at h
    · simp at h
    · have h1 := skipIfReady_length s
      have h2 := skipIfReady_length (((skipIfReady s).setRxbuf ((skipIfReady s).rxbuf.drop 13)).setSkip true)
      simp at h2
      simp only
      omega

/-! ## Between two events (R44) -/

/-- With RXBUF and SKIP as R44 says they are between two events, the framer asks for more data and changes nothing. -/
theorem runFramer_idle {s : State} (h1 : RxbufShape s) (h2 : SkipShape s) : runFramer s = (.needMoreData, s) := by
  unfold runFramer
  cases hm : s.cfg.mode with
  | delim =>
    simp only [RxbufShape, hm, if_true] at h1
    simp only
    rcases h1 with h1 | ⟨h1, h3⟩
    · rw [runDelim, h1, cutDelim_no_start List.not_mem_nil]
      show (_, s.setRxbuf []) = _
      rw [← h1]; rfl
    · obtain ⟨mid, hmid⟩ : ∃ mid, s.rxbuf = 0xAA :: mid := by
        cases h : s.rxbuf with
        | nil => simp [h] at h1
        | cons y m => rw [h] at h1; exact ⟨m, by rw [Option.some.inj h1]⟩
      have e := cutDelim_no_end (pre := []) List.not_mem_nil
        fun hh => h3 (hmid ▸ List.mem_cons_of_mem _ hh)
      simp only [List.nil_append] at e
      rw [runDelim, hmid, e]
      show (_, s.setRxbuf (0xAA :: mid)) = _
      rw [← hmid]; rfl
  | fixed =>
    simp only [RxbufShape, SkipShape, hm, reduceCtorEq, if_false] at h1 h2
    simp only
    by_cases hs : s.skip = true
    · have e : skipIfReady s = s := by simp [skipIfReady, State.separatorReady, h2 hs]
      simp [runFixed, e, hs]
    · simp only [Bool.not_eq_true] at hs
      have : s.rxbuf.length < 13 := by omega
      simp [runFixed, skipIfReady_of_not_skip hs, hs, cutFixed, fixedLength, this]

/-- What the framer leaves when it does ask for more data is what R44 says stands between two events. -/
theorem runFramer_shape {s : State} (h : (runFramer s).1 = .needMoreData) : RxbufShape (runFramer s).2 := by
  have hcfg := (framerFrame_runFramer s).cfg
  unfold RxbufShape
  rw [hcfg]
  unfold runFramer at h ⊢
  cases hm : s.cfg.mode with
  | delim =>
    rw [hm] at h
    simp only [if_true] at h ⊢
    rcases runDelim_cases s with ⟨-, e⟩ | ⟨_, mid, -, -, hmid, e⟩ | ⟨_, _, _, -, -, -, ⟨_, -, e⟩ | ⟨-, e⟩⟩ <;> rw [e] at h ⊢
    · exact .inl rfl
    · refine .inr ⟨rfl, fun hh => ?_⟩
      rcases List.mem_cons.1 hh with hh | hh
      · exact absurd hh (by decide)
      · exact hmid hh
    · cases h
    · cases h
  | fixed =>
    rw [hm] at h
    simp only [reduceCtorEq, if_false] at h ⊢
    rcases runFixed_cases s with ⟨-, e, -, h0⟩ | ⟨-, hl, e⟩ | ⟨-, -, e⟩ <;> rw [e] at h ⊢
    · simp [h0]
    · show (skipIfReady s).rxbuf.length ≤ 12
      omega
    · cases h

/-- A byte added to such an RXBUF is the last of whatever frame it completes: nothing is left in RXBUF, and in FIXED
mode a separator is pending (R176 corner case 1). -/
theorem runFramer_pushByte {s : State} {b : Byte} (h1 : RxbufShape s)
    (hne : (runFramer (s.pushBytes [b])).1 ≠ .needMoreData) :
    (runFramer (s.pushBytes [b])).2.rxbuf = [] ∧
      (s.cfg.mode = .fixed → (runFramer (s.pushBytes [b])).2.skip = true) := by
  unfold runFramer at hne ⊢
  cases hm : s.cfg.mode with
  | delim =>
    simp only [State.pushBytes_cfg, hm] at hne ⊢
    simp only [RxbufShape, hm, if_true] at h1
    refine ⟨?_, fun h => by cases h⟩
    rcases runDelim_cases (s.pushBytes [b]) with ⟨-, e⟩ | ⟨_, mid, -, -, hmid, e⟩ | ⟨pre, mid, post, hb, -, hmid, e⟩
    · rw [e] at hne; simp at hne
    · rw [e] at hne; simp at hne
    · have hpost : post = [] := by
        rcases h1 with h1 | ⟨-, h3⟩
        · have := congrArg List.length hb
          simp [h1] at this
          omega
        · by_contra hp
          have hl : post = post.dropLast ++ [post.getLast hp] := (List.dropLast_append_getLast hp).symm
          rw [hl, State.pushBytes_rxbuf] at hb
          have hb' : s.rxbuf ++ [b] = (pre ++ 0xAA :: (mid ++ 0x55 :: post.dropLast)) ++ [post.getLast hp] := by
            simpa using hb
          apply h3
          rw [(List.append_inj' hb' rfl).1]
          simp
      rcases e with ⟨_, -, e⟩ | ⟨-, e⟩ <;> rw [e] <;> simp [hpost]
  | fixed =>
    simp only [State.pushBytes_cfg, hm] at hne ⊢
    simp only [RxbufShape, hm, reduceCtorEq, if_false] at h1
    rcases runFixed_cases (s.pushBytes [b]) with ⟨-, e, -, -⟩ | ⟨-, -, e⟩ | ⟨-, hl, e⟩
    · rw [e] at hne; simp at hne
    · rw [e] at hne; simp at hne
    · rw [e]
      have hlen := skipIfReady_length (s.pushBytes [b])
      simp only [State.pushBytes_rxbuf, List.length_append, List.length_singleton] at hlen
      have : (skipIfReady (s.pushBytes [b])).rxbuf.drop 13 = [] := List.drop_eq_nil_of_le (by omega)
      rw [this]
      simp [skipIfReady, State.separatorReady]

end Sys2Proof.Machine
end

