-- ==== Sys2Proof/Laws/PerInstr.lean ====
section
/-! SUPPORT. Sys2Proof/Laws/PerInstr.lean: statements about every operation, one lemma per constructor. -/

/-! ## EncodedSize: the encoding of an operation is as long as the shortest of its rows in spec/opcode_table.json that
stands at its level, in bytes (DEC: as long as its body). -/

namespace Sys2Proof.Laws.EncodedSize

open Sys2Proof

/-- The length of an operation's encoding. -/
def size : Instr → Nat
  | .rx _ _ => 1
  | .reset => 0
  | .frmDelim => 7
  | .frmFixed => 13
  | .frmSkip => 1
  | .dec body => body.length
  | .flt _ => 3
  | .thrAccept _ _ => 1
  | .sfEmit => 0
  | .fpFirst _ _ => 1
  | .fpNext _ _ => 1
  | .fpEmit _ _ => 0

/-- The encoding has the size of the operation's rows. -/
def Statement (i : Instr) : Prop := (encode i).length = size i

theorem rx (b : Byte) (now : Nat) : Statement (.rx b now) := rfl
theorem reset : Statement .reset := rfl
theorem frmDelim : Statement .frmDelim := rfl
theorem frmFixed : Statement .frmFixed := rfl
theorem frmSkip : Statement .frmSkip := rfl
theorem dec (body : List Byte) : Statement (.dec body) := rfl
theorem flt (pgn : Pgn) : Statement (.flt pgn) := rfl
theorem thrAccept (pgn : Pgn) (now : Nat) : Statement (.thrAccept pgn now) := rfl
theorem sfEmit : Statement .sfEmit := rfl
theorem fpFirst (seq : BitVec 3) (now : Nat) : Statement (.fpFirst seq now) := rfl
theorem fpNext (seq : BitVec 3) (fc : BitVec 5) : Statement (.fpNext seq fc) := rfl
theorem fpEmit (p : Pgn) (src : Byte) : Statement (.fpEmit p src) := rfl

end Sys2Proof.Laws.EncodedSize
end

