-- ==== Sys2Proof/Laws/Table.lean ====
section
/-! SUPPORT. Sys2Proof/Laws/Table.lean: the laws of keyed tables: reading after writing, the canonical form is kept,
writes to one key overwrite, writes to two keys commute. -/

namespace Sys2Proof.Machine

variable {α : Type}

/-! ## Reading after writing -/

@[simp] theorem Table.get_nil (k : Nat) : Table.get ([] : Table α) k = none := rfl

theorem Table.get_cons (j : Nat) (v : α) (t : Table α) (k : Nat) :
    Table.get ((j, v) :: t) k = if k = j then some v else Table.get t k := rfl

@[simp] theorem Table.get_set_self (t : Table α) (k : Nat) (v : α) : (t.set k v).get k = some v := by
  induction t with
  | nil => simp [Table.set, Table.get]
  | cons x t ih =>
    obtain ⟨j, w⟩ := x
    simp only [Table.set]
    split
    · simp [Table.get]
    · split
      · simp [Table.get]
      · rename_i h; simp [Table.get, h, ih]

theorem Table.get_set_ne (t : Table α) {k l : Nat} (v : α) (h : l ≠ k) : (t.set k v).get l = t.get l := by
  induction t with
  | nil => simp [Table.set, Table.get, h]
  | cons x t ih =>
    obtain ⟨j, w⟩ := x
    simp only [Table.set]
    split
    · simp [Table.get, h]
    · split
      · rename_i hk; subst hk; simp [Table.get, h]
      · simp [Table.get, ih]

@[simp] theorem Table.get_erase_self (t : Table α) (k : Nat) : (t.erase k).get k = none := by
  induction t with
  | nil => rfl
  | cons x t ih =>
    obtain ⟨j, w⟩ := x
    by_cases h : j = k
    · simpa [Table.erase, h] using ih
    · have h' : ¬ k = j := fun e => h e.symm
      simpa [Table.erase, h, Table.get, h'] using ih

theorem Table.get_erase_ne (t : Table α) {k l : Nat} (h : l ≠ k) : (t.erase k).get l = t.get l := by
  induction t with
  | nil => rfl
  | cons x t ih =>
    obtain ⟨j, w⟩ := x
    by_cases hj : j = k
    · have : ¬ l = j := fun e => h (e.trans hj)
      simpa [Table.erase, hj, Table.get, h] using ih
    · by_cases hl : l = j
      · simp [Table.erase, hj, Table.get, hl]
      · simpa [Table.erase, hj, Table.get, hl] using ih

/-! ## Members -/

theorem Table.mem_set {t : Table α} {k : Nat} {v : α} {x : Nat × α} (h : x ∈ t.set k v) : x = (k, v) ∨ x ∈ t := by
  induction t with
  | nil => simpa [Table.set] using h
  | cons y t ih =>
    obtain ⟨j, w⟩ := y
    simp only [Table.set] at h
    split at h
    · simpa using h
    · split at h
      · rcases List.mem_cons.1 h with h | h
        · exact .inl h
        · exact .inr (List.mem_cons_of_mem _ h)
      · rcases List.mem_cons.1 h with h | h
        · exact .inr (h ▸ List.mem_cons_self)
        · exact (ih h).imp id (List.mem_cons_of_mem _)

theorem Table.self_mem_set (t : Table α) (k : Nat) (v : α) : (k, v) ∈ t.set k v := by
  induction t with
  | nil => simp [Table.set]
  | cons y t ih =>
    obtain ⟨j, w⟩ := y
    simp only [Table.set]
    split
    · simp
    · split
      · simp
      · simp [ih]

theorem Table.mem_set_of_mem {t : Table α} {k : Nat} {v : α} {x : Nat × α} (h : x ∈ t) (hk : x.1 ≠ k) :
    x ∈ t.set k v := by
  induction t with
  | nil => simp at h
  | cons y t ih =>
    obtain ⟨j, w⟩ := y
    simp only [Table.set]
    rcases List.mem_cons.1 h with h | h
    · subst h
      split
      · simp
      · split
        · rename_i hj; exact absurd hj.symm hk
        · simp
    · split
      · simp [h]
      · split
        · simp [h]
        · simp [ih h]

theorem Table.mem_of_mem_erase {t : Table α} {k : Nat} {x : Nat × α} (h : x ∈ t.erase k) : x ∈ t :=
  List.mem_of_mem_filter h

theorem Table.mem_of_get {t : Table α} {k : Nat} {v : α} (h : t.get k = some v) : (k, v) ∈ t := by
  induction t with
  | nil => simp at h
  | cons y t ih =>
    obtain ⟨j, w⟩ := y
    simp only [Table.get] at h
    split at h
    · rename_i hk; cases h; simp [hk]
    · simp [ih h]

theorem Table.get_eq_none_iff {t : Table α} {k : Nat} : t.get k = none ↔ ∀ x ∈ t, x.1 ≠ k := by
  induction t with
  | nil => simp
  | cons y t ih =>
    obtain ⟨j, w⟩ := y
    by_cases h : k = j
    · simp [Table.get, h]
    · have h' : ¬ j = k := fun e => h e.symm
      simp [Table.get, h, h', ih]

/-! ## The canonical form -/

@[simp] theorem Table.wf_nil : Table.wf ([] : Table α) := List.Pairwise.nil

theorem Table.wf_cons {y : Nat × α} {t : Table α} : Table.wf (y :: t) ↔ (∀ x ∈ t, y.1 < x.1) ∧ Table.wf t := by
  simp [Table.wf]

theorem Table.wf_singleton (k : Nat) (v : α) : Table.wf [(k, v)] := by simp [Table.wf]

theorem Table.wf_set {t : Table α} (k : Nat) (v : α) (h : t.wf) : (t.set k v).wf := by
  induction t with
  | nil => exact Table.wf_singleton k v
  | cons y t ih =>
    obtain ⟨j, w⟩ := y
    obtain ⟨hlt, ht⟩ := Table.wf_cons.1 h
    simp only [Table.set]
    split
    · rename_i hk
      refine Table.wf_cons.2 ⟨?_, h⟩
      intro x hx
      rcases List.mem_cons.1 hx with hx | hx
      · subst hx; exact hk
      · exact lt_trans hk (hlt x hx)
    · split
      · rename_i hk; subst hk; exact Table.wf_cons.2 ⟨hlt, ht⟩
      · rename_i h1 h2
        refine Table.wf_cons.2 ⟨?_, ih ht⟩
        intro x hx
        rcases Table.mem_set hx with hx | hx
        · subst hx; show j < k; omega
        · exact hlt x hx

theorem Table.wf_erase {t : Table α} (k : Nat) (h : t.wf) : (t.erase k).wf :=
  List.Pairwise.sublist (List.Sublist.map _ List.filter_sublist) h

theorem Table.get_of_mem {t : Table α} (h : t.wf) {x : Nat × α} (hx : x ∈ t) : t.get x.1 = some x.2 := by
  induction t with
  | nil => simp at hx
  | cons y t ih =>
    obtain ⟨j, w⟩ := y
    obtain ⟨hlt, ht⟩ := Table.wf_cons.1 h
    rcases List.mem_cons.1 hx with hx | hx
    · subst hx; simp [Table.get]
    · have : x.1 ≠ j := Nat.ne_of_gt (hlt x hx)
      simp [Table.get, this, ih ht hx]

/-- Canonical tables with the same readings are the same data. -/
theorem Table.eq_of_get {t u : Table α} (ht : t.wf) (hu : u.wf) (h : ∀ k, t.get k = u.get k) : t = u := by
  induction t generalizing u with
  | nil =>
    cases u with
    | nil => rfl
    | cons y u => have := h y.1; simp [Table.get] at this
  | cons x t ih =>
    cases u with
    | nil => have := h x.1; simp [Table.get] at this
    | cons y u =>
      obtain ⟨hx, ht'⟩ := Table.wf_cons.1 ht
      obtain ⟨hy, hu'⟩ := Table.wf_cons.1 hu
      have key : x.1 = y.1 := by
        have h1 : (x.1, x.2) ∈ y :: u := Table.mem_of_get (by rw [← h]; simp [Table.get])
        have h2 : (y.1, y.2) ∈ x :: t := Table.mem_of_get (by rw [h]; simp [Table.get])
        rcases List.mem_cons.1 h1 with h1 | h1
        · exact congrArg Prod.fst h1
        · rcases List.mem_cons.1 h2 with h2 | h2
          · exact (congrArg Prod.fst h2).symm
          · have := hy _ h1; have := hx _ h2; omega
      have val : x.2 = y.2 := by
        have := h x.1
        simpa [Table.get, key] using this
      have hxy : x = y := Prod.ext key val
      subst hxy
      congr 1
      refine ih ht' hu' fun k => ?_
      have hk := h k
      simp only [Table.get] at hk
      by_cases e : k = x.1
      · subst e
        rw [Table.get_eq_none_iff.2 fun z hz => Nat.ne_of_gt (hx z hz),
          Table.get_eq_none_iff.2 fun z hz => Nat.ne_of_gt (hy z hz)]
      · simpa [e] using hk

/-! ## Writes to one key and to two -/

@[simp] theorem Table.set_set (t : Table α) (k : Nat) (v w : α) : (t.set k v).set k w = t.set k w := by
  induction t with
  | nil => simp [Table.set]
  | cons y t ih =>
    obtain ⟨j, u⟩ := y
    simp only [Table.set]
    split
    · simp [Table.set]
    · split
      · rename_i h1 h2; subst h2; simp [Table.set]
      · rename_i h1 h2; simp [Table.set, h1, h2, ih]

theorem Table.set_comm {t : Table α} (h : t.wf) {k l : Nat} (hkl : k ≠ l) (v w : α) :
    (t.set k v).set l w = (t.set l w).set k v := by
  refine Table.eq_of_get (Table.wf_set _ _ (Table.wf_set _ _ h)) (Table.wf_set _ _ (Table.wf_set _ _ h)) fun m => ?_
  by_cases h1 : m = l
  · subst h1; rw [Table.get_set_self, Table.get_set_ne _ _ (Ne.symm hkl), Table.get_set_self]
  · by_cases h2 : m = k
    · subst h2; rw [Table.get_set_ne _ _ hkl, Table.get_set_self, Table.get_set_self]
    · rw [Table.get_set_ne _ _ h1, Table.get_set_ne _ _ h2, Table.get_set_ne _ _ h2, Table.get_set_ne _ _ h1]

@[simp] theorem Table.erase_set (t : Table α) (k : Nat) (v : α) : (t.set k v).erase k = t.erase k := by
  induction t with
  | nil => simp [Table.set, Table.erase]
  | cons y t ih =>
    obtain ⟨j, u⟩ := y
    simp only [Table.set]
    split
    · simp [Table.erase]
    · split
      · rename_i h1 h2; subst h2; simp [Table.erase]
      · simp only [Table.erase, List.filter_cons] at ih ⊢
        rw [ih]

/-! ## The memory's canonical form (the model's choice, log 9) is kept by every storage operation -/

theorem memory_wf_reset (cfg : Cfg) : Memory.wf (State.construct cfg) := by
  simp [Memory.wf, State.construct]

theorem memory_wf_fptSet {s : State} (p : Pgn) {e : FastPacketState} (h : Memory.wf s) (he : e.frames.wf) :
    Memory.wf (s.fptSet p e) := by
  refine ⟨Table.wf_set _ _ h.1, h.2.1, fun x hx => ?_⟩
  rcases Table.mem_set hx with hx | hx
  · subst hx; exact he
  · exact h.2.2 x hx

theorem memory_wf_fptClear {s : State} (p : Pgn) (h : Memory.wf s) : Memory.wf (s.fptClear p) :=
  ⟨Table.wf_erase _ h.1, h.2.1, fun x hx => h.2.2 x (Table.mem_of_mem_erase hx)⟩

theorem memory_wf_thrSet {s : State} (p : Pgn) (now : Nat) (h : Memory.wf s) : Memory.wf (s.thrSet p now) :=
  ⟨h.1, Table.wf_set _ _ h.2.1, h.2.2⟩

theorem memory_wf_runReset (s : State) : Memory.wf (runReset s) := by
  simp [Memory.wf]

/-- An update that leaves both tables as they are keeps the form: pushBytes, setRxbuf, setSkip, setCf, clearCf, emit
and dropFrame are of this kind. -/
theorem memory_wf_congr {s t : State} (hf : t.fpt = s.fpt) (ht : t.thr = s.thr) (h : Memory.wf s) : Memory.wf t := by
  unfold Memory.wf
  rw [hf, ht]
  exact h

end Sys2Proof.Machine
end

