-- ==== Sys2Proof/Laws/Reassembler.lean ====
section
/-! SUPPORT. Sys2Proof/Laws/Reassembler.lean: everything the throttle and the reassembler can do, said once, and the
bookkeeping of a reassembly entry (R28). -/

namespace Sys2Proof.Machine

open Sys2Proof.Safety

/-! ## THR.ACCEPT (R136) -/

theorem thrVerdict_eq (p : Pgn) (now : Nat) (s : State) : thrVerdict p now s = true ↔ Admits s p now := by
  unfold thrVerdict State.thrGet Admits
  cases s.thr.get p.toNat with
  | none => simp
  | some t => simp [intervalElapsed]

/-- THR.ACCEPT, said once. -/
theorem runThrAccept_cases (p : Pgn) (now : Nat) (s : State) :
    (Admits s p now ∧ runThrAccept p now s = (true, s.thrSet p now)) ∨
    (¬ Admits s p now ∧ runThrAccept p now s = (false, s)) := by
  unfold runThrAccept
  rw [← thrVerdict_eq]
  by_cases h : thrVerdict p now s = true
  · exact .inl ⟨h, by rw [if_pos h]⟩
  · exact .inr ⟨h, by rw [if_neg h]⟩

/-! ## The store (R148, R152, R156) -/

theorem completeEntry_iff (e : FastPacketState) : completeEntry e = true ↔ e.plen.toNat ≤ e.stored.toNat := by
  simp [completeEntry]

theorem runFpEmit_of_get {p : Pgn} {src : Byte} {s : State} {e : FastPacketState} (h : s.fptGet p = some e) :
    runFpEmit p src s = (s.fptClear p).emit p src (payloadOf e) := by
  simp only [runFpEmit, h]

/-- The store, said once: a complete entry is emitted and removed, any other is kept. -/
theorem storeEntry_cases (p : Pgn) (src : Byte) (e : FastPacketState) (s : State) :
    (e.plen.toNat ≤ e.stored.toNat ∧ storeEntry p src e s = (s.fptClear p).emit p src (payloadOf e)) ∨
    (e.stored.toNat < e.plen.toNat ∧ storeEntry p src e s = s.fptSet p e) := by
  unfold storeEntry
  by_cases h : completeEntry e = true
  · refine .inl ⟨(completeEntry_iff e).1 h, ?_⟩
    have hg : (s.fptSet p e).fptGet p = some e := Table.get_set_self _ _ _
    rw [if_pos h, runFpEmit_of_get hg]
    simp only [State.fptClear, State.fptSet, Table.erase_set]
  · refine .inr ⟨?_, by rw [if_neg h]⟩
    rw [completeEntry_iff] at h
    omega

/-! ## FP.FIRST and FP.NEXT (R148, R152) -/

/-- FP.FIRST, said once. -/
theorem runFpFirst_cases (seq : BitVec 3) (now : Nat) (s : State) :
    (s.cf.data.length < 2 ∧ runFpFirst seq now s = s.dropFrame .xFpNolen (some s.cf.pgn)) ∨
    (2 ≤ s.cf.data.length ∧ ¬ Admits s s.cf.pgn now ∧
      runFpFirst seq now s = s.dropFrame .nThrottled (some s.cf.pgn)) ∨
    (2 ≤ s.cf.data.length ∧ Admits s s.cf.pgn now ∧
      runFpFirst seq now s =
        storeEntry s.cf.pgn s.cf.source (firstEntry seq s.cf.data) (s.thrSet s.cf.pgn now)) := by
  unfold runFpFirst
  by_cases h : s.cf.data.length < 2
  · exact .inl ⟨h, by rw [if_pos h]⟩
  · rcases runThrAccept_cases s.cf.pgn now s with ⟨ha, e⟩ | ⟨ha, e⟩
    · exact .inr (.inr ⟨by omega, ha, by rw [if_neg h, e]⟩)
    · exact .inr (.inl ⟨by omega, ha, by rw [if_neg h, e]⟩)

theorem chunkPresent_iff (e : FastPacketState) (fc : BitVec 5) :
    chunkPresent e fc = true ↔ e.frames.get fc.toNat ≠ none := by
  simp [chunkPresent, Option.isSome_iff_ne_none]

/-- FP.NEXT, said once. -/
theorem runFpNext_cases (seq : BitVec 3) (fc : BitVec 5) (s : State) :
    (s.fptGet s.cf.pgn = none ∧ runFpNext seq fc s = s.dropFrame .xFpNostart (some s.cf.pgn)) ∨
    ∃ e, s.fptGet s.cf.pgn = some e ∧
      ((seq ≠ e.seq ∧ runFpNext seq fc s = s.dropFrame .xFpSeq (some s.cf.pgn)) ∨
        (seq = e.seq ∧ e.frames.get fc.toNat ≠ none ∧
          runFpNext seq fc s = s.dropFrame .xFpDup (some s.cf.pgn)) ∨
        (seq = e.seq ∧ e.frames.get fc.toNat = none ∧
          runFpNext seq fc s = storeEntry s.cf.pgn s.cf.source (addChunk e fc (nextChunk s.cf.data)) s)) := by
  unfold runFpNext
  cases hg : s.fptGet s.cf.pgn with
  | none => exact .inl ⟨rfl, rfl⟩
  | some e =>
    refine .inr ⟨e, rfl, ?_⟩
    by_cases hs : seq = e.seq
    · by_cases hp : chunkPresent e fc = true
      · exact .inr (.inl ⟨hs, (chunkPresent_iff e fc).1 hp, by simp [hs, hp]⟩)
      · refine .inr (.inr ⟨hs, ?_, by simp [hs, hp]⟩)
        rw [chunkPresent_iff] at hp
        exact not_not.1 hp
    · exact .inl ⟨hs, by simp [hs]⟩

/-! ## What the stages after DEC leave alone -/

/-- Two states that differ in FPT, THR, OUT and DIAG only, the streams by appending. -/
structure StageFrame (s t : State) : Prop where
  cfg : t.cfg = s.cfg
  rxbuf : t.rxbuf = s.rxbuf
  skip : t.skip = s.skip
  cf : t.cf = s.cf
  ret : t.ret = s.ret
  input : t.input = s.input
  streams : ∃ o d, t.out = s.out ++ o ∧ t.diag = s.diag ++ d ∧ o.length + d.length ≤ 1 ∧
    ∀ r ∈ o, r.pgn = s.cf.pgn

theorem stageFrame_dropFrame (s : State) (code : DropCode) (info : Option Pgn) :
    StageFrame s (s.dropFrame code info) :=
  ⟨rfl, rfl, rfl, rfl, rfl, rfl, [], [⟨code, info⟩], by simp, rfl, by simp, by simp⟩

theorem stageFrame_storeEntry (src : Byte) (e : FastPacketState) (s : State) :
    StageFrame s (storeEntry s.cf.pgn src e s) := by
  rcases storeEntry_cases s.cf.pgn src e s with ⟨-, h⟩ | ⟨-, h⟩ <;> rw [h]
  · exact ⟨rfl, rfl, rfl, rfl, rfl, rfl, [⟨s.cf.pgn, src, payloadOf e⟩], [], rfl, by simp, by simp, by simp⟩
  · exact ⟨rfl, rfl, rfl, rfl, rfl, rfl, [], [], by simp, by simp, by simp, by simp⟩

theorem stageFrame_runFpFirst (seq : BitVec 3) (now : Nat) (s : State) : StageFrame s (runFpFirst seq now s) := by
  rcases runFpFirst_cases seq now s with ⟨-, h⟩ | ⟨-, -, h⟩ | ⟨-, -, h⟩ <;> rw [h]
  · exact stageFrame_dropFrame s _ _
  · exact stageFrame_dropFrame s _ _
  · have f := stageFrame_storeEntry s.cf.source (firstEntry seq s.cf.data) (s.thrSet s.cf.pgn now)
    exact ⟨f.cfg, f.rxbuf, f.skip, f.cf, f.ret, f.input, f.streams⟩

theorem stageFrame_runFpNext (seq : BitVec 3) (fc : BitVec 5) (s : State) : StageFrame s (runFpNext seq fc s) := by
  rcases runFpNext_cases seq fc s with ⟨-, h⟩ | ⟨e, -, ⟨-, h⟩ | ⟨-, -, h⟩ | ⟨-, -, h⟩⟩ <;> rw [h]
  · exact stageFrame_dropFrame s _ _
  · exact stageFrame_dropFrame s _ _
  · exact stageFrame_dropFrame s _ _
  · exact stageFrame_storeEntry s.cf.source _ s

/-! ## The chunks of an entry (R28 items 1, 2 and 7) -/

/-- The bytes held in a table of chunks. -/
theorem sum_lengths_set {t : Table (List Byte)} {k : Nat} (v : List Byte) (h : t.get k = none) :
    ((t.set k v).map fun x => x.2.length).sum = (t.map fun x => x.2.length).sum + v.length := by
  induction t with
  | nil => simp [Table.set]
  | cons y t ih =>
    obtain ⟨j, w⟩ := y
    have hk : k ≠ j := fun e => by simp [Table.get, e] at h
    have ht : Table.get t k = none := by simpa [Table.get, hk] using h
    simp only [Table.set, hk, if_false]
    split
    · simp; omega
    · simp [ih ht]; omega

/-- The chunks looked up one counter after another hold as many bytes as the table. -/
theorem sum_lookup_lengths {t : Table (List Byte)} (hw : t.wf) (n : Nat) (hn : ∀ x ∈ t, x.1 < n) :
    ((List.range n).map fun k => ((t.get k).getD []).length).sum = (t.map fun x => x.2.length).sum := by
  have step : ∀ (t : Table (List Byte)), t.wf → ∀ m : Nat,
      ((List.range m).map fun k => ((t.get k).getD []).length).sum =
        ((t.filter fun x => x.1 < m).map fun x => x.2.length).sum := by
    intro t ht
    induction t with
    | nil => intro m; simp
    | cons y t ih =>
      obtain ⟨j, w⟩ := y
      obtain ⟨hlt, ht'⟩ := Table.wf_cons.1 ht
      have hj : Table.get t j = none := Table.get_eq_none_iff.2 fun x hx => Nat.ne_of_gt (hlt x hx)
      intro m
      have split : ((List.range m).map fun k => ((Table.get ((j, w) :: t) k).getD []).length).sum =
          (if j < m then w.length else 0) + ((List.range m).map fun k => ((Table.get t k).getD []).length).sum := by
        induction m with
        | zero => simp
        | succ m ihm =>
          simp only [List.range_succ, List.map_append, List.sum_append, List.map_cons, List.map_nil, List.sum_cons,
            List.sum_nil, ihm]
          by_cases e : m = j
          · subst e; simp [Table.get, hj]; omega
          · by_cases hl : j < m
            · have : j < m + 1 := by omega
              simp [Table.get, e, hl, this]; omega
            · have : ¬ j < m + 1 := by omega
              simp [Table.get, e, hl, this]
      rw [split, ih ht' m]
      by_cases hl : j < m <;> simp [hl]
  rw [step t hw n]
  have : t.filter (fun x => decide (x.1 < n)) = t := List.filter_eq_self.2 fun x hx => by simpa using hn x hx
  rw [this]

theorem combinedChunks_eq (frames : Table (List Byte)) : combinedChunks frames = inOrder frames := by
  simp [combinedChunks, inOrder, List.flatMap_def]

theorem length_combinedChunks {frames : Table (List Byte)} (hw : frames.wf) (hk : ∀ x ∈ frames, x.1 < 32) :
    (combinedChunks frames).length = (frames.map fun x => x.2.length).sum := by
  rw [combinedChunks, List.length_flatMap]
  exact sum_lookup_lengths hw 32 hk

/-- A canonical table whose keys are below `n` has at most `n` entries. -/
theorem length_le_of_keys_lt {α : Type} {t : Table α} (hw : t.wf) (n : Nat) (hn : ∀ x ∈ t, x.1 < n) : t.length ≤ n := by
  have hnd : (t.map Prod.fst).Nodup := hw.imp fun h => Nat.ne_of_lt h
  have hsub : (t.map Prod.fst) ⊆ List.range n := by
    intro k hk
    obtain ⟨x, hx, rfl⟩ := List.mem_map.1 hk
    exact List.mem_range.2 (hn x hx)
  have := (hnd.subperm hsub).length_le
  simpa using this

/-- An entry holds at most 223 bytes: 6 under key 0 and 7 under each of the 31 others (R28 item 7). -/
theorem sum_lengths_le {frames : Table (List Byte)} (hw : frames.wf) (hk : ∀ x ∈ frames, x.1 < 32)
    (hl : ∀ x ∈ frames, x.2.length ≤ if x.1 = 0 then 6 else 7) :
    (frames.map fun x => x.2.length).sum ≤ 223 := by
  rw [← sum_lookup_lengths hw 32 hk]
  have hb : ∀ k, ((frames.get k).getD []).length ≤ if k = 0 then 6 else 7 := by
    intro k
    cases h : frames.get k with
    | none => simp
    | some c => simpa using hl _ (Table.mem_of_get h)
  have : ((List.range 32).map fun k => ((frames.get k).getD []).length).sum ≤
      ((List.range 32).map fun k => if k = 0 then 6 else 7).sum :=
    List.sum_le_sum fun k _ => hb k
  exact this.trans (by decide)

/-! ## The bookkeeping of an entry is kept (R28) -/

theorem length_firstChunk (data : List Byte) : (firstChunk data).length = data.length - 2 := by
  simp [firstChunk]

theorem length_nextChunk (data : List Byte) : (nextChunk data).length = data.length - 1 := by
  simp [nextChunk]

theorem entryInv_firstEntry {seq : BitVec 3} {data : List Byte} (hd : data.length ≤ 8)
    (hn : (firstEntry seq data).stored.toNat < (firstEntry seq data).plen.toNat) : EntryInv (firstEntry seq data) := by
  have hl := length_firstChunk data
  refine ⟨Table.wf_singleton _ _, ?_, ?_, ?_, ?_, hn⟩
  · simp [firstEntry]
  · simp only [firstEntry, BitVec.toNat_ofNat, List.map_cons, List.map_nil, List.sum_cons, List.sum_nil]
    omega
  · simp [firstEntry]
  · simp only [firstEntry, List.mem_singleton]
    rintro x rfl
    simp; omega

theorem stored_addChunk {e : FastPacketState} (fc : BitVec 5) (chunk : List Byte) (he : e.stored.toNat ≤ 223)
    (hc : chunk.length ≤ 7) : (addChunk e fc chunk).stored.toNat = e.stored.toNat + chunk.length := by
  simp only [addChunk, BitVec.toNat_add, BitVec.toNat_ofNat]
  omega

theorem entryInv_stored_le {e : FastPacketState} (h : EntryInv e) : e.stored.toNat ≤ 223 := by
  rw [h.2.2.1]; exact sum_lengths_le h.1 h.2.1 h.2.2.2.2.1

/-- All of `EntryInv` but the last clause is kept by adding an absent later chunk. -/
theorem entryInv_addChunk {e : FastPacketState} {fc : BitVec 5} {chunk : List Byte} (h : EntryInv e)
    (ha : e.frames.get fc.toNat = none) (hc : chunk.length ≤ 7) :
    (addChunk e fc chunk).frames.wf ∧
    (∀ x ∈ (addChunk e fc chunk).frames, x.1 < 32) ∧
    (addChunk e fc chunk).stored.toNat = ((addChunk e fc chunk).frames.map fun x => x.2.length).sum ∧
    (∃ x ∈ (addChunk e fc chunk).frames, x.1 = 0) ∧
    (∀ x ∈ (addChunk e fc chunk).frames, x.2.length ≤ if x.1 = 0 then 6 else 7) := by
  obtain ⟨hw, hk, hs, ⟨z, hz, hz0⟩, hl, -⟩ := id h
  have hfc : fc.toNat ≠ 0 := by
    intro e0
    rw [e0] at ha
    exact Table.get_eq_none_iff.1 ha z hz hz0
  refine ⟨Table.wf_set _ _ hw, ?_, ?_, ?_, ?_⟩
  · intro x hx
    rcases Table.mem_set hx with rfl | hx
    · exact fc.isLt
    · exact hk x hx
  · rw [stored_addChunk fc chunk (entryInv_stored_le h) hc, hs]
    exact (sum_lengths_set chunk ha).symm
  · exact ⟨z, Table.mem_set_of_mem hz (by rw [hz0]; exact Ne.symm hfc), hz0⟩
  · intro x hx
    rcases Table.mem_set hx with rfl | hx
    · simpa [hfc] using hc
    · exact hl x hx

/-- The payload of an entry whose bookkeeping holds and whose `stored` has reached `plen` is `plen` bytes long. -/
theorem length_payloadOf {e : FastPacketState} (hw : e.frames.wf) (hk : ∀ x ∈ e.frames, x.1 < 32)
    (hs : e.stored.toNat = (e.frames.map fun x => x.2.length).sum) (hc : e.plen.toNat ≤ e.stored.toNat) :
    (payloadOf e).length = e.plen.toNat := by
  rw [payloadOf, List.length_take, length_combinedChunks hw hk, ← hs]
  omega

end Sys2Proof.Machine
end

