-- ==== Sys2Proof/Laws/Pipeline.lean ====
section
/-! SUPPORT. Sys2Proof/Laws/Pipeline.lean: what the stages, the handling of one frame and the loop of RX can do, said
once, and the induction over the loop packaged once. -/

namespace Sys2Proof.Machine

open Sys2Proof.Safety

/-! ## The stages after DEC (R178, R179) -/

theorem controlOf_append (l : List Byte) (ctl : Byte) : controlOf (l ++ [ctl]) = some ctl := by
  simp [controlOf]

theorem stageFrame_reassemble (now : Nat) (s : State) : StageFrame s (reassemble now s) := by
  unfold reassemble
  split
  · exact stageFrame_dropFrame s _ _
  · split
    · exact stageFrame_runFpFirst _ now s
    · exact stageFrame_runFpNext _ _ s

theorem stageFrame_runSfEmit (s : State) : StageFrame s (runSfEmit s) :=
  ⟨rfl, rfl, rfl, rfl, rfl, rfl, [⟨s.cf.pgn, s.cf.source, s.cf.data⟩], [], rfl, by simp [runSfEmit], by simp, by simp⟩

/-- The routing, said once. -/
theorem routeFrame_cases (now : Nat) (s : State) :
    (allowed s.cfg s.cf.pgn = false ∧ routeFrame now s = s.dropFrame .nFiltered (some s.cf.pgn)) ∨
    (allowed s.cfg s.cf.pgn = true ∧ isFast s.cfg.fast s.cf.pgn = false ∧ routeFrame now s = runSfEmit s) ∨
    (allowed s.cfg s.cf.pgn = true ∧ isFast s.cfg.fast s.cf.pgn = true ∧ routeFrame now s = reassemble now s) := by
  unfold routeFrame
  cases allowed s.cfg s.cf.pgn <;> cases isFast s.cfg.fast s.cf.pgn <;> simp

theorem stageFrame_routeFrame (now : Nat) (s : State) : StageFrame s (routeFrame now s) := by
  rcases routeFrame_cases now s with ⟨-, h⟩ | ⟨-, -, h⟩ | ⟨-, -, h⟩ <;> rw [h]
  · exact stageFrame_dropFrame s _ _
  · exact stageFrame_runSfEmit s
  · exact stageFrame_reassemble now s

/-- The handling of one frame, said once (R178). -/
theorem process_cases (body : List Byte) (now : Nat) (s : State) :
    (∃ code, decodeBody body = .dropped code ∧ process body now s = s.dropFrame code none) ∨
    ∃ cf, decodeBody body = .ok cf ∧ process body now s = (routeFrame now (s.setCf cf)).clearCf := by
  unfold process runDec
  cases decodeBody body with
  | dropped code => exact .inl ⟨code, rfl, rfl⟩
  | ok cf => exact .inr ⟨cf, rfl, rfl⟩

/-- A CanFrame that DEC answers: 18 bits of PGN, at most 8 data bytes (R11, R113). -/
theorem decodeBody_ok {body : List Byte} {cf : CanFrame} (h : decodeBody body = .ok cf) :
    cf.pgn.toNat < pgnCount ∧ cf.data.length ≤ 8 := by
  unfold decodeBody at h
  split at h
  · cases h
  · split at h
    · cases h
    · cases h
      refine ⟨pgnField_lt _, ?_⟩
      simp only [bodyData, List.length_reverse, List.length_take, List.length_drop]
      omega

theorem process_rxbuf (body : List Byte) (now : Nat) (s : State) : (process body now s).rxbuf = s.rxbuf := by
  rcases process_cases body now s with ⟨c, -, h⟩ | ⟨cf, -, h⟩ <;> rw [h]
  · rfl
  · exact (stageFrame_routeFrame now (s.setCf cf)).rxbuf

theorem process_skip (body : List Byte) (now : Nat) (s : State) : (process body now s).skip = s.skip := by
  rcases process_cases body now s with ⟨c, -, h⟩ | ⟨cf, -, h⟩ <;> rw [h]
  · rfl
  · exact (stageFrame_routeFrame now (s.setCf cf)).skip

theorem process_cfg (body : List Byte) (now : Nat) (s : State) : (process body now s).cfg = s.cfg := by
  rcases process_cases body now s with ⟨c, -, h⟩ | ⟨cf, -, h⟩ <;> rw [h]
  · rfl
  · exact (stageFrame_routeFrame now (s.setCf cf)).cfg

theorem process_input (body : List Byte) (now : Nat) (s : State) : (process body now s).input = s.input := by
  rcases process_cases body now s with ⟨c, -, h⟩ | ⟨cf, -, h⟩ <;> rw [h]
  · rfl
  · exact (stageFrame_routeFrame now (s.setCf cf)).input

/-! ## The loop of RX (R176) -/

/-- What the framer and the handling of a frame keep, the loop keeps. -/
theorem rxLoop_keeps (P : State → Prop) (now : Nat) (hf : ∀ u, P u → P (runFramer u).2)
    (hp : ∀ body u, P u → P (process body now u)) (n : Nat) {s : State} (h : P s) : P (rxLoop n now s) := by
  induction n generalizing s with
  | zero => exact h
  | succ n ih =>
    have h1 := hf s h
    unfold rxLoop
    rcases hr : runFramer s with ⟨r, t⟩
    rw [hr] at h1
    cases r with
    | needMoreData => exact h1
    | dropped code => exact ih h1
    | frame body => exact ih (hp body t h1)

/-- More passes than bytes: the loop ends by its exit, with a framer that asked for more data. -/
theorem rxLoop_exits (now : Nat) {n : Nat} {s : State} (h : s.rxbuf.length < n) :
    ∃ u, (runFramer u).1 = .needMoreData ∧ rxLoop n now s = (runFramer u).2 := by
  induction n generalizing s with
  | zero => omega
  | succ n ih =>
    unfold rxLoop
    have hc : (runFramer s).1 ≠ .needMoreData → (runFramer s).2.rxbuf.length + 2 ≤ s.rxbuf.length := runFramer_consumes
    rcases hr : runFramer s with ⟨r, t⟩
    rw [hr] at hc
    cases r with
    | needMoreData => exact ⟨s, by rw [hr], by rw [hr]⟩
    | dropped code =>
      have := hc (by simp)
      exact ih (by simp only at this; omega)
    | frame body =>
      have := hc (by simp)
      exact ih (by rw [process_rxbuf]; simp only at this; omega)

/-- The number of passes allowed does not matter once it exceeds the bytes in RXBUF. -/
theorem rxLoop_passes (now : Nat) {n m : Nat} {s : State} (hn : s.rxbuf.length < n) (hm : s.rxbuf.length < m) :
    rxLoop n now s = rxLoop m now s := by
  induction n generalizing s m with
  | zero => omega
  | succ n ih =>
    cases m with
    | zero => omega
    | succ m =>
      unfold rxLoop
      have hc : (runFramer s).1 ≠ .needMoreData → (runFramer s).2.rxbuf.length + 2 ≤ s.rxbuf.length := runFramer_consumes
      rcases hr : runFramer s with ⟨r, t⟩
      rw [hr] at hc
      cases r with
      | needMoreData => rfl
      | dropped code =>
        have := hc (by simp)
        exact ih (by simp only at this; omega) (by simp only at this; omega)
      | frame body =>
        have := hc (by simp)
        exact ih (by rw [process_rxbuf]; simp only at this; omega) (by rw [process_rxbuf]; simp only at this; omega)

/-- The loop from a state whose framer asks for more data at once. -/
theorem rxLoop_of_needMoreData (now n : Nat) {s : State} (h : (runFramer s).1 = .needMoreData) :
    rxLoop (n + 1) now s = (runFramer s).2 := by
  unfold rxLoop
  rcases hr : runFramer s with ⟨r, t⟩
  rw [hr] at h
  simp only at h
  subst h
  rfl

/-- RX, said once (R176 corner case 1): from what stands between two events, the byte completes at most one frame, and
the second pass of the loop finds nothing. -/
theorem runRx_eq {s : State} (b : Byte) (now : Nat) (h1 : RxbufShape s) :
    runRx b now s = match runFramer (s.pushBytes [b]) with
      | (.needMoreData, t) => t
      | (.dropped _, t) => t
      | (.frame body, t) => process body now t := by
  have hc := (framerFrame_runFramer (s.pushBytes [b])).cfg
  have hp : (runFramer (s.pushBytes [b])).1 ≠ .needMoreData → _ := runFramer_pushByte h1
  have idle : ∀ u : State, u.rxbuf = [] → u.cfg = s.cfg → (s.cfg.mode = .fixed → u.skip = true) →
      runFramer u = (.needMoreData, u) := by
    intro u hu hcfg hk
    cases hm : s.cfg.mode with
    | delim =>
      rw [runFramer, hcfg, hm]
      simp only
      rw [runDelim, hu, cutDelim_no_start List.not_mem_nil]
      show (_, u.setRxbuf []) = _
      rw [← hu]; rfl
    | fixed =>
      have e : skipIfReady u = u := by simp [skipIfReady, State.separatorReady, hu]
      rw [runFramer, hcfg, hm]
      simp only
      rw [runFixed, e, if_pos (hk hm)]
  have hk : (s.rxbuf ++ [b]).length + 1 = s.rxbuf.length + 1 + 1 := by simp
  unfold runRx runChunk
  rw [hk, rxLoop]
  rcases hr : runFramer (s.pushBytes [b]) with ⟨r, t⟩
  rw [hr] at hp hc
  cases r with
  | needMoreData => rfl
  | dropped code =>
    obtain ⟨e1, e2⟩ := hp (by simp)
    simp only
    rw [rxLoop, idle t e1 hc e2]
  | frame body =>
    obtain ⟨e1, e2⟩ := hp (by simp)
    simp only
    rw [rxLoop, idle (process body now t) (by rw [process_rxbuf]; exact e1) (by rw [process_cfg]; exact hc)
      (by rw [process_skip]; exact e2)]

/-- What an operation run by itself answers. -/
@[simp] theorem answer_eq (r : Ret) (s : State) : answer r s = .next { s with ret := r } := rfl

end Sys2Proof.Machine
end

