-- ==== Sys2Proof/Laws/Step.lean ====
section
/-! SUPPORT. Sys2Proof/Laws/Step.lean: what one step can do: it runs the operation its request selects, or drops or
passes over input that selects none; it never refuses. -/

namespace Sys2Proof.Machine

/-! ## What a request leaves behind -/

@[simp] theorem remaining_rx_nil (now : Nat) : remaining ⟨.rx now, []⟩ = [] := rfl
@[simp] theorem remaining_rx_one (now : Nat) (b : Byte) : remaining ⟨.rx now, [b]⟩ = [] := rfl
@[simp] theorem remaining_rx_more (now : Nat) (a b : Byte) (bytes : List Byte) :
    remaining ⟨.rx now, a :: b :: bytes⟩ = [⟨.rx now, b :: bytes⟩] := rfl

/-- Only a chunk leaves anything. -/
theorem remaining_of_not_rx {r : Request} (h : ∀ now, r.level ≠ .rx now) : remaining r = [] := by
  obtain ⟨l, bytes⟩ := r
  cases l with
  | rx now => exact absurd rfl (h now)
  | _ => rfl

/-! ## Input that selects no operation -/

/-- Passing over appends one DIAG record or changes nothing. -/
theorem passOver_cases (e : DecodeError) (s : State) :
    passOver e s = s ∨ ∃ code info, passOver e s = s.dropFrame code info := by
  cases e with
  | noByte | noSeparator | notAFirstFrame => exact .inl rfl
  | noBody | bodyTooShort | noControlByte => exact .inr ⟨_, _, rfl⟩

/-- It touches neither table, so the canonical form stays. -/
theorem passOver_tables (e : DecodeError) (s : State) :
    (passOver e s).fpt = s.fpt ∧ (passOver e s).thr = s.thr := by
  rcases passOver_cases e s with h | ⟨code, info, h⟩ <;> rw [h] <;> exact ⟨rfl, rfl⟩

/-! ## The step -/

theorem step_nil {s : State} (h : s.input = []) : step s = .next s := by
  simp only [step, fetch, h]

/-- A request whose bits select an operation: the step is that operation. -/
theorem step_ok {s : State} {r : Request} {rest : List Request} {i : Instr} (h : s.input = r :: rest)
    (hd : decode r.level (fetchBytes r s) = .ok i) : step s = exec i { s with input := remaining r ++ rest } := by
  simp only [step, fetch, h, hd]

/-- A request whose bits select none: it is dropped or passed over. -/
theorem step_error {s : State} {r : Request} {rest : List Request} {e : DecodeError} (h : s.input = r :: rest)
    (hd : decode r.level (fetchBytes r s) = .error e) :
    step s = .next (passOver e { s with input := remaining r ++ rest }) := by
  simp only [step, fetch, h, hd]

/-- Everything a step can do. -/
theorem step_cases {s t : State} (h : step s = .next t) :
    (s.input = [] ∧ t = s) ∨
    ∃ r rest, s.input = r :: rest ∧
      ((∃ i, decode r.level (fetchBytes r s) = .ok i ∧ exec i { s with input := remaining r ++ rest } = .next t) ∨
        ∃ e, decode r.level (fetchBytes r s) = .error e ∧
          t = passOver e { s with input := remaining r ++ rest }) := by
  cases hs : s.input with
  | nil =>
    rw [step_nil hs] at h
    cases h
    exact .inl ⟨rfl, rfl⟩
  | cons r rest =>
    refine .inr ⟨r, rest, rfl, ?_⟩
    cases hd : decode r.level (fetchBytes r s) with
    | ok i => exact .inl ⟨i, rfl, (step_ok hs hd).symm.trans h⟩
    | error e =>
      rw [step_error hs hd] at h
      cases h
      exact .inr ⟨e, rfl, rfl⟩

/-- No operation ends in a refusal. -/
theorem exec_ne_refused (i : Instr) (s : State) (r : Refusal) : exec i s ≠ .refused r := by
  cases i with
  | rx b now => exact nofun
  | reset => exact nofun
  | flt pgn => exact nofun
  | thrAccept pgn now => exact nofun
  | sfEmit => exact nofun
  | fpFirst seq now => exact nofun
  | fpNext seq fc => exact nofun
  | frmDelim => simp only [exec, execFrmDelim, answer]; split <;> exact nofun
  | frmFixed => simp only [exec, execFrmFixed, answer]; split <;> exact nofun
  | frmSkip => simp only [exec, execFrmSkip]; split <;> exact nofun
  | dec body => simp only [exec, execDec, answer]; split <;> exact nofun
  | fpEmit p src => simp only [exec, execFpEmit]; split <;> exact nofun

end Sys2Proof.Machine
end

