-- ==== Sys2Proof/Tests/Slice0.lean ====
section
/-! SUPPORT. Sys2Proof/Tests/Slice0.lean: the model's own tests. Expected values come from spec/95_test_vectors.md, from
the examples of the rules, or from words written out bit by bit from spec/30_encoding.md. The `witness_` theorems show,
for each statement of Certificates/Slice0/Obligations.lean that has hypotheses, values that meet them together. -/

namespace Sys2Proof.Tests

open Sys2Proof.Machine Sys2Proof.Safety

/-- The next state of an outcome. -/
def after : Host.Outcome State Fault Refusal → Option State
  | .next t => some t
  | _ => none

/-- The fault of an outcome. -/
def stopped : Host.Outcome State Fault Refusal → Option Fault
  | .fault f => some f
  | _ => none

/-! ## WellFormed: each check refuses an ill-formed term -/

theorem test_wf_dec_short : (Instr.dec [0, 0, 0, 0]).illFormed = some .bodyTooShort := by decide
theorem test_wf_flt_wide : (Instr.flt 0x40000).illFormed = some .pgnTooWide := by decide
theorem test_wf_thr_wide : (Instr.thrAccept 0x40000 0).illFormed = some .pgnTooWide := by decide
theorem test_wf_emit_wide : (Instr.fpEmit 0x40000 0).illFormed = some .pgnTooWide := by decide
theorem test_wf_next_zero : (Instr.fpNext 0 0).illFormed = some .frameCounterZero := by decide

/-! ## Decoding: words written out from R60 to R69 -/

-- RX: any byte (row RX).
theorem test_decode_rx : decode (.rx 7) [0x55] = .ok (.rx 0x55 7) := by decide
-- RESET, SF.EMIT, FP.EMIT: no bits.
theorem test_decode_reset : decode .reset [] = .ok .reset := by decide
theorem test_decode_sfEmit : decode .single [] = .ok .sfEmit := by decide
theorem test_decode_fpEmit : decode (.complete 129029 0x23) [] = .ok (.fpEmit 129029 0x23) := by decide
-- FRM.DELIM: AA 23 11 22 33 44 01 02 03 55 (R92 example, row n = 3).
theorem test_decode_frmDelim :
    decode .delim [0xAA, 0x23, 0x11, 0x22, 0x33, 0x44, 0x01, 0x02, 0x03, 0x55] = .ok .frmDelim := by decide
-- FRM.FIXED: thirteen bytes, whatever they are (R62); FRM.SKIP: one byte, whatever it is (R97).
theorem test_decode_frmFixed :
    decode .fixed [0x08, 0x23, 0x05, 0xF8, 0x0D, 0x40, 0x08, 0xA0, 0xA1, 0xA2, 0xA3, 0xA4, 0xA5] = .ok .frmFixed := by
  decide
theorem test_decode_frmSkip : decode .separator [0x7E] = .ok .frmSkip := by decide
-- DEC: type byte 0010 0011, id bytes 11 22 33 44, three data bytes (R111 example).
theorem test_decode_dec :
    decode .body [0b00100011, 0x11, 0x22, 0x33, 0x44, 0x01, 0x02, 0x03] =
      .ok (.dec [0x23, 0x11, 0x22, 0x33, 0x44, 0x01, 0x02, 0x03]) := by decide
-- FLT: 18 bits 01 1111 1101 0000 0010 = 130306, bit 17 leftmost.
theorem test_decode_flt : decode .pgn [0b00000001, 0b11111101, 0b00000010] = .ok (.flt 130306) := by decide
-- Bits above the row's 18 are no part of it.
theorem test_decode_flt_above : decode .pgn [0b10101101, 0b11111101, 0b00000010] = .ok (.flt 130306) := by decide
-- THR.ACCEPT and FP.FIRST: control byte qqq00000 (R66); FP.NEXT: qqqfffff.
theorem test_decode_thrAccept : decode (.throttle 129029 1000) [0b01000000] = .ok (.thrAccept 129029 1000) := by decide
theorem test_decode_thrAccept_later : decode (.throttle 129029 1000) [0b01000001] = .error .notAFirstFrame := by decide
theorem test_decode_fpFirst : decode (.control 1000) [0b01000000, 0x08] = .ok (.fpFirst 2 1000) := by decide
theorem test_decode_fpNext : decode (.control 0) [0b10110001] = .ok (.fpNext 5 17) := by decide
theorem test_decode_no_control : decode (.control 0) [] = .error .noControlByte := by decide
-- Of a chunk, the first byte (R177).
theorem test_decode_chunk : decode (.rx 7) [0xAA, 0x23] = .ok (.rx 0xAA 7) := by decide

/-! ### The rows that a bare word selects (log 2) -/

theorem test_word_reset : decodeTableWord 0 0 = some .reset := by decide
theorem test_word_delim_n3 : decodeTableWord 80 0xAA231122334401020355 = some .frmDelim := by decide
-- Row n = 6 is 13 bytes long, as a FIXED frame is; its markers tell it apart.
theorem test_word_delim_n6 : decodeTableWord 104 0xAA060000000000000000000055 = some .frmDelim := by decide
theorem test_word_fixed_n8 : decodeTableWord 104 0x082305F80D4008A0A1A2A3A4A5 = some .frmFixed := by decide
theorem test_word_first_n8 : decodeTableWord 64 0x4008A0A1A2A3A4A5 = some (.fpFirst 2 0) := by decide
theorem test_word_next_n1 : decodeTableWord 8 0b00110000 = some (.fpNext 1 16) := by decide
theorem test_word_next_n8 : decodeTableWord 64 0x41A6A7FFFFFFFFFF = some (.fpNext 2 1) := by decide
theorem test_word_nine_bytes : decodeTableWord 72 0 = none := by decide

/-! ## States of the vectors -/

/-- The configuration of programs P1 and P3. -/
def cfgD : Cfg := { mode := .delim, incl := [], excl := [], minInterval := 5000, fast := .only [129029] }

/-- The configuration of program P2. -/
def cfgF : Cfg := { cfgD with mode := .fixed }

def sD : State := .construct cfgD

def sF : State := .construct cfgF

/-- `23 11 22 33 44 01 02 03` (R111 example): idHigh 010001, PGN 13090, source 0x11. -/
def exampleFrame : Wire := { typeHigh := 2, idHigh := 0x11, pgn := 13090, source := 0x11, data := [1, 2, 3] }

/-- `E8 10 02 FD 09 01 .. 08` (program P1): PGN 130306, source 0x10. -/
def windFrame : Wire := { typeHigh := 0xE, idHigh := 2, pgn := 130306, source := 0x10, data := [1, 2, 3, 4, 5, 6, 7, 8] }

/-- `08 23 05 F8 0D 20 14 01 .. 06` (program P3): first frame, seq 1, plen 20. -/
def firstFrame : Wire :=
  { typeHigh := 0, idHigh := 3, pgn := 129029, source := 0x23, data := firstFrameData 1 20 [1, 2, 3, 4, 5, 6] }

theorem test_wire_example : exampleFrame.body = [0x23, 0x11, 0x22, 0x33, 0x44, 0x01, 0x02, 0x03] := by decide
theorem test_wire_wind :
    windFrame.delim [] = [0xAA, 0xE8, 0x10, 0x02, 0xFD, 0x09, 1, 2, 3, 4, 5, 6, 7, 8, 0x55] := by decide
theorem test_wire_first :
    firstFrame.body = [0x08, 0x23, 0x05, 0xF8, 0x0D, 0x20, 0x14, 1, 2, 3, 4, 5, 6] := by decide

/-- The entry of program P3 after its frames 0 and 2. -/
def entry : FastPacketState :=
  { seq := 1, plen := 20, stored := 13, frames := [(0, [6, 5, 4, 3, 2, 1]), (2, [0x14, 0x13, 0x12, 0x11, 0x10, 0x0F, 0x0E])] }

/-- Program P3 at t = 1030, its frame 1 in the decoded-frame registers. -/
def sE : State :=
  { sD with
    fpt := [(129029, entry)]
    thr := [(129029, 1000)]
    cf := { pgn := 129029, source := 0x23, data := [0x0D, 0x0C, 0x0B, 0x0A, 9, 8, 7, 0x21] } }

/-- A first frame of the PGN in the decoded-frame registers (R148 example), nothing stored. -/
def sFirst : State :=
  { sD with cf := { pgn := 129029, source := 0x23, data := [0xA5, 0xA4, 0xA3, 0xA2, 0xA1, 0xA0, 0x08, 0x40] } }

/-- A whole 13-byte frame waits in FIXED mode, with one byte behind it. -/
def sFull : State := { sF with rxbuf := [0x02, 0x05, 0x12, 0xF1, 0x09, 0x34, 0x12, 0xEE, 0xEE, 0xEE, 0xEE, 0xEE, 0xEE, 0x00] }

/-! ## One step of each operation -/

-- P1: the 0x55 of `AA 23 11 22 33 44 01 02 03 55` emits [03, 02, 01].
theorem test_rx_delim : (after (exec (.rx 0x55 100)
      { sD with rxbuf := [0xAA, 0x23, 0x11, 0x22, 0x33, 0x44, 0x01, 0x02, 0x03] })).map (fun t => (t.rxbuf, t.out)) =
    some ([], [⟨13090, 0x11, [3, 2, 1]⟩]) := by decide
-- P2: the 13th byte of the first frame creates the entry, records 1000 and sets SKIP.
theorem test_rx_fixed : (after (exec (.rx 0xA5 1000)
      { sF with rxbuf := [0x08, 0x23, 0x05, 0xF8, 0x0D, 0x40, 0x08, 0xA0, 0xA1, 0xA2, 0xA3, 0xA4] })).map
        (fun t => (t.fpt, t.thr, t.skip)) =
    some ([(129029, ⟨2, 8, 6, [(0, [0xA5, 0xA4, 0xA3, 0xA2, 0xA1, 0xA0])]⟩)], [(129029, 1000)], true) := by decide
-- R231 example.
theorem test_reset : (after (exec .reset { sE with rxbuf := [0xAA, 0x23] })).map (fun t => (t.fpt, t.thr, t.rxbuf)) =
    some ([], [], []) := by decide
-- R91 example: 00 55 AA 23 11 leaves AA 23 11.
theorem test_frmDelim_waits : (after (exec .frmDelim { sD with rxbuf := [0x00, 0x55, 0xAA, 0x23, 0x11] })).map
    (fun t => (t.rxbuf, t.ret)) = some ([0xAA, 0x23, 0x11], .needMoreData) := by decide
-- R92 example: L = 9 < 10.
theorem test_frmDelim_short : (after (exec .frmDelim
      { sD with rxbuf := [0xAA, 0x23, 0x11, 0x22, 0x33, 0x44, 0x01, 0x02, 0x55] })).map (fun t => (t.rxbuf, t.diag)) =
    some ([], [⟨.xShort, none⟩]) := by decide
-- P2, third line: frame and separator in one chunk.
theorem test_frmFixed : (after (exec .frmFixed sFull)).map (fun t => (t.rxbuf, t.skip, t.ret)) =
    some ([], false, .frame [0x02, 0x05, 0x12, 0xF1, 0x09, 0x34, 0x12, 0xEE, 0xEE, 0xEE, 0xEE, 0xEE, 0xEE]) := by decide
-- R97 example.
theorem test_frmSkip : (after (exec .frmSkip { sF with skip := true, rxbuf := [0x7E] })).map (fun t => (t.rxbuf, t.skip)) =
    some ([], false) := by decide
-- R111 example.
theorem test_dec : (after (exec (.dec [0x23, 0x11, 0x22, 0x33, 0x44, 0x01, 0x02, 0x03]) sD)).map (fun t => t.cf) =
    some ⟨13090, 0x11, [3, 2, 1]⟩ := by decide
-- R111 corner case 4: all-ones id.
theorem test_dec_ones : (after (exec (.dec [0xF0, 0xFF, 0xFF, 0xFF, 0xFF]) sD)).map (fun t => t.cf) =
    some ⟨262143, 255, []⟩ := by decide
-- R126 corner case 1 (include wins) and example.
theorem test_flt_include : (after (exec (.flt 130306)
      { sD with cfg := { cfgD with incl := [130306], excl := [130306] } })).map (fun t => t.ret) =
    some (.verdict true) := by decide
theorem test_flt_exclude : (after (exec (.flt 13090) { sD with cfg := { cfgD with excl := [13090] } })).map
    (fun t => t.ret) = some (.verdict false) := by decide
-- R136 example: 3000 is rejected, 6000 accepted.
theorem test_thr_rejects : (after (exec (.thrAccept 129029 3000) sE)).map (fun t => (t.ret, t.thr)) =
    some (.verdict false, [(129029, 1000)]) := by decide
theorem test_thr_accepts : (after (exec (.thrAccept 129029 6000) sE)).map (fun t => (t.ret, t.thr)) =
    some (.verdict true, [(129029, 6000)]) := by decide
-- R180 example.
theorem test_sfEmit : (after (exec .sfEmit { sD with cf := ⟨13090, 0x11, [3, 2, 1]⟩ })).map (fun t => t.out) =
    some [⟨13090, 0x11, [3, 2, 1]⟩] := by decide
-- R148 example.
theorem test_fpFirst : (after (exec (.fpFirst 2 1000) sFirst)).map (fun t => t.fpt) =
    some [(129029, ⟨2, 8, 6, [(0, [0xA5, 0xA4, 0xA3, 0xA2, 0xA1, 0xA0])]⟩)] := by decide
-- P3, t = 1030: frames 0, 2, 1 give the payload in frame-counter order.
theorem test_fpNext : (after (exec (.fpNext 1 1) sE)).map (fun t => (t.fpt, t.out)) =
    some ([], [⟨129029, 0x23, [6, 5, 4, 3, 2, 1, 0x0D, 0x0C, 0x0B, 0x0A, 9, 8, 7, 0x14, 0x13, 0x12, 0x11, 0x10, 0x0F, 0x0E]⟩]) := by
  decide
-- P3, t = 1020: a foreign sequence.
theorem test_fpNext_seq : (after (exec (.fpNext 2 1) sE)).map (fun t => (t.fpt, t.diag)) =
    some ([(129029, entry)], [⟨.xFpSeq, some 129029⟩]) := by decide
-- R156 example: the tail A7, A6 is cut.
theorem test_fpEmit : (after (exec (.fpEmit 129029 0x23)
      { sD with fpt := [(129029, ⟨2, 8, 13, [(0, [0xA5, 0xA4, 0xA3, 0xA2, 0xA1, 0xA0]), (1, [0xFF, 0xFF, 0xFF, 0xFF, 0xFF, 0xA7, 0xA6])]⟩)] })).map
        (fun t => (t.fpt, t.out)) =
    some ([], [⟨129029, 0x23, [0xA5, 0xA4, 0xA3, 0xA2, 0xA1, 0xA0, 0xFF, 0xFF]⟩]) := by decide

/-! ## The host's placing: the next step runs the word -/

theorem test_place_reset : (after (step (State.reset.withFetchWord 0 0))).map (fun t => t.rxbuf) = some [] := by decide
theorem test_place_delim : (after (step (State.reset.withFetchWord 80 0xAA231122334401020355))).map (fun t => t.ret) =
    some (.frame [0x23, 0x11, 0x22, 0x33, 0x44, 0x01, 0x02, 0x03]) := by decide
theorem test_place_fixed : (after (step (State.reset.withFetchWord 104 0x02051200000000000000000000))).map (fun t => t.skip) =
    some true := by decide
theorem test_place_first : (after (step (State.reset.withFetchWord 64 0x4008A0A1A2A3A4A5))).map (fun t => t.thr) =
    some [(0, 0)] := by decide
theorem test_place_next : (after (step (State.reset.withFetchWord 8 0x41))).map (fun t => t.diag) =
    some [⟨.xFpNostart, some 0⟩] := by decide

/-! ## Witnesses: the hypotheses of the statements can be met -/

/-- One well-formed operation of each constructor. -/
def someInstrs : List Instr :=
  [.rx 0x55 7, .reset, .frmDelim, .frmFixed, .frmSkip, .dec [0, 0, 0, 0, 0], .flt 0x3FFFF, .thrAccept 0x3FFFF 9, .sfEmit,
    .fpFirst 7 9, .fpNext 7 31, .fpEmit 0x3FFFF 0xFF]

theorem witness_DecodeEncodeRoundTrip : ∀ i ∈ someInstrs, i.wf = true := by decide

theorem witness_DecodedOperationsAreWellFormed :
    decode .body [0, 0, 0, 0, 0] = .ok (.dec [0, 0, 0, 0, 0]) ∧ decode (.control 9) [0xE1] = .ok (.fpNext 7 1) ∧
      decode .pgn [3, 0xFF, 0xFF] = .ok (.flt 0x3FFFF) := by decide

/-- P1's last byte as an event waiting in the input, another behind it. -/
def sInput : State :=
  { sD with
    rxbuf := [0xAA, 0x23, 0x11, 0x22, 0x33, 0x44, 0x01, 0x02, 0x03]
    input := [⟨.rx 100, [0x55]⟩, ⟨.reset, []⟩] }

theorem witness_StepRunsDecodedOperation :
    sInput.input = ⟨.rx 100, [0x55]⟩ :: [⟨.reset, []⟩] ∧
      decode (.rx 100) (fetchBytes ⟨.rx 100, [0x55]⟩ sInput) = .ok (.rx 0x55 100) := by decide

theorem witness_RestingBlockDoesNotAct : sE.input = [] := by decide

/-! ### Transport Framer -/

/-- The contents of RXBUF of FrmDelimCutsTheFirstCandidate: no start marker; no end marker; then `mid` for each branch
of the length check at its boundary: L = 2, L = 3, L = 6, L = 7 with n = 9, L = 14 with n = 8, L = 15 with n = 8. -/
def delimMids : List (List Byte) :=
  [[], [8], [8, 0, 0, 0], [9, 0, 0, 0, 0], [8, 0, 0, 0, 0, 1, 2, 3, 4, 5, 6, 7], [8, 0, 0, 0, 0, 1, 2, 3, 4, 5, 6, 7, 0xAA]]

theorem witness_FrmDelimCutsTheFirstCandidate :
    cfgD.mode = .delim ∧ (0xAA : Byte) ∉ ([0x55, 0] : List Byte) ∧ (0x55 : Byte) ∉ ([0xAA, 1] : List Byte) ∧
      ∀ mid ∈ delimMids, (0x55 : Byte) ∉ mid := by decide

theorem witness_FrmDelim_branches :
    delimMids.map (fun mid => (after (exec .frmDelim { sD with rxbuf := [0x55] ++ 0xAA :: (mid ++ 0x55 :: [7]) })).map
        fun t => t.ret) =
      [some (.dropped .xRunt), some (.dropped .xShort), some (.dropped .xShort), some (.dropped .xDlen),
        some (.dropped .xShort), some (.frame [8, 0, 0, 0, 0, 1, 2, 3, 4, 5, 6, 7, 0xAA])] := by decide

theorem witness_DelimWireFrameIsCut :
    sD.cfg.mode = .delim ∧ windFrame.data.length ≤ 8 ∧ (0xAA : Byte) ∉ ([0x55, 0x13] : List Byte) ∧
      (0x55 : Byte) ∉ windFrame.body ++ [0xAA] ∧
      ({ sD with rxbuf := [0x55, 0x13] ++ windFrame.delim [0xAA] ++ [0xAA] } : State).rxbuf =
        [0x55, 0x13] ++ windFrame.delim [0xAA] ++ [0xAA] := by decide

/-- Program P4, t = 50: data byte 0x55 behind `03 23 05 F8 0D 21`. -/
def embedded : Wire := { typeHigh := 0, idHigh := 3, pgn := 129029, source := 0x23, data := [0x21, 0x55, 0x18] }

/-- A type byte of 0x55. -/
def embeddedType : Wire := { typeHigh := 5, idHigh := 3, pgn := 129029, source := 0x23, data := [1, 2, 3, 4, 5] }

theorem witness_EmbeddedEndMarkerLosesTheFrame :
    sD.cfg.mode = .delim ∧ embedded.data.length ≤ 8 ∧ embedded.body = [0x03, 0x23, 0x05, 0xF8, 0x0D, 0x21] ++ 0x55 :: [0x18] ∧
      (0x55 : Byte) ∉ ([0x03, 0x23, 0x05, 0xF8, 0x0D, 0x21] : List Byte) ∧ embeddedType.data.length ≤ 8 ∧
      embeddedType.body = [] ++ 0x55 :: [0x23, 0x05, 0xF8, 0x0D, 1, 2, 3, 4, 5] := by decide

theorem witness_StrayStartMarkerLosesTheFrame :
    sD.cfg.mode = .delim ∧ (0x55 : Byte) ∉ exampleFrame.body ++ [] ∧
      ({ sD with rxbuf := 0xAA :: 0xAA :: (exampleFrame.body ++ []) } : State).rxbuf =
        0xAA :: 0xAA :: (exampleFrame.body ++ []) := by decide

/-- Thirteen bytes. -/
def slot : List Byte := [0x02, 0x05, 0x12, 0xF1, 0x09, 0x34, 0x12, 0xEE, 0xEE, 0xEE, 0xEE, 0xEE, 0xEE]

/-- Its clauses: SKIP with nothing buffered; SKIP with a byte; 12 bytes; exactly 13; 14. -/
theorem witness_FrmFixedCutsThirteenBytes :
    sF.cfg.mode = .fixed ∧ sF.skip = false ∧ sF.rxbuf = [] ∧ (slot.take 12).length < 13 ∧ slot.length = 13 ∧
      sFull.rxbuf = slot ++ 0x00 :: [] ∧ sFull.skip = false ∧
      (after (exec .frmFixed { sF with skip := true })).isSome ∧
      (after (exec .frmFixed { sF with skip := true, rxbuf := [0x7E] })).isSome := by decide

theorem witness_FrmSkipDiscardsOneByte :
    ({ sF with skip := true, rxbuf := [0x7E] } : State).skip = true ∧
      ({ sF with skip := true, rxbuf := [0x7E] } : State).rxbuf = 0x7E :: [] := by decide

/-- Its clauses: FIXED; DELIM; SKIP false; RXBUF empty; no entry; an entry one byte short. -/
theorem witness_CallsOutsideTheirConditionStop :
    sF.cfg.mode = .fixed ∧ sD.cfg.mode = .delim ∧ sFull.skip = false ∧ sF.rxbuf = [] ∧ sD.fpt.get 129029 = none ∧
      sE.fpt.get 129029 = some entry ∧ entry.stored.toNat < entry.plen.toNat ∧
      stopped (exec .frmDelim sF) = some .wrongMode ∧ stopped (exec (.fpEmit 129029 0x23) sE) = some .notComplete := by decide

/-! ### Frame Decoder, PGN Filter, Throttle Gate -/

/-- Its clauses: n = 9; n = 8 with seven bytes behind the id; n = 8 with eight; n = 0 with none. -/
theorem witness_DecReadsTheFields :
    8 < (0x29 : Byte).toNat % 16 ∧ (0x28 : Byte).toNat % 16 ≤ 8 ∧ 7 < (0x28 : Byte).toNat % 16 ∧
      (0x28 : Byte).toNat % 16 ≤ 8 ∧ (0x20 : Byte).toNat % 16 ≤ 0 := by decide

theorem witness_WireBodyDecodesToItsFields : windFrame.data.length ≤ 8 ∧ exampleFrame.data.length ≤ 8 := by decide

theorem witness_DecIgnoresUnreadBits :
    (0x23 : Byte).toNat % 16 = (0xD3 : Byte).toNat % 16 ∧ (0x44 : Byte).toNat % 4 = (0xB8 : Byte).toNat % 4 ∧
      ([1, 2, 3] : List Byte).length = (0x23 : Byte).toNat % 16 := by decide

theorem witness_RxForwardsAllowedPgnsOnly :
    (after (exec (.rx 0x55 100) sInput)).map (fun t => t.out.length) = some 1 := by decide

/-- Its clauses: no entry; exactly MIN_INTERVAL; one tick less; a time that went backwards. -/
theorem witness_ThrAcceptCases :
    sD.thr.get 129029 = none ∧ sE.thr.get 129029 = some 1000 ∧
      (sE.cfg.minInterval : Int) ≤ ((6000 : Nat) : Int) - ((1000 : Nat) : Int) ∧
      ((5999 : Nat) : Int) - ((1000 : Nat) : Int) < (sE.cfg.minInterval : Int) ∧
      ((999 : Nat) : Int) - ((1000 : Nat) : Int) < (sE.cfg.minInterval : Int) := by decide

theorem witness_ThrAcceptRecordsAcceptancesOnly :
    (after (exec (.thrAccept 129029 6000) sE)).map (fun t => t.ret) = some (.verdict true) ∧
      (after (exec (.thrAccept 129029 5999) sE)).map (fun t => t.ret) = some (.verdict false) ∧
      (129030 : Pgn) ≠ 129029 := by decide

theorem witness_AdmissionsAreSpaced :
    sE.thr.get 129029 = some 1000 ∧ admissions 129029 [3000, 6000, 500, 7000, 11000] sE = [6000, 11000] := by decide

/-! ### Fast-Packet Reassembler -/

/-- A state with the given entry of the PGN, and data in the decoded-frame registers. -/
def sNext (e : FastPacketState) (data : List Byte) : State :=
  { sD with fpt := [(129029, e)], thr := [(129029, 1000)], cf := { pgn := 129029, source := 0x23, data := data } }

theorem admits_first : Admits sFirst sFirst.cf.pgn 1000 := by
  intro t h
  cases h

theorem admits_exactly : Admits sE sE.cf.pgn 6000 := by
  intro t h
  cases h
  decide

theorem admits_not : ¬ Admits sE sE.cf.pgn 5999 := fun h => absurd (h 1000 rfl) (by decide)

/-- Its clauses: one data byte; rejected; admitted with plen one more than the chunk, and equal to it. -/
theorem witness_FpFirstCases :
    (([0x20] : List Byte).length < 2 ∧
      ([1, 2, 3, 4, 5, 6, 7, 0x20] : List Byte) = [1, 2, 3, 4, 5, 6] ++ [7, 0x20] ∧ [1, 2, 3, 4, 5, 6].length ≤ 6 ∧
      [1, 2, 3, 4, 5, 6].length < (7 : Byte).toNat ∧ (6 : Byte).toNat ≤ [1, 2, 3, 4, 5, 6].length) ∧
      Admits sFirst sFirst.cf.pgn 1000 ∧ ¬ Admits sE sE.cf.pgn 5999 :=
  ⟨by decide, admits_first, admits_not⟩

theorem witness_SupersedingIsUnconditional : 2 ≤ sE.cf.data.length ∧ Admits sE sE.cf.pgn 6000 :=
  ⟨by decide, admits_exactly⟩

/-- Its clauses: no entry; a foreign sequence; a stored counter (key 0 too); a chunk of 7 that brings `stored` to
plen - 1 and one that brings it to plen; `stored` at its bound 223. -/
theorem witness_FpNextCases :
    sFirst.fpt.get sFirst.cf.pgn.toNat = none ∧ sE.fpt.get sE.cf.pgn.toNat = some entry ∧ (2 : BitVec 3) ≠ entry.seq ∧
      entry.frames.get (2 : BitVec 5).toNat ≠ none ∧ entry.frames.get (0 : BitVec 5).toNat ≠ none ∧
      entry.frames.get (1 : BitVec 5).toNat = none ∧ sE.cf.data = [0x0D, 0x0C, 0x0B, 0x0A, 9, 8, 7] ++ [0x21] ∧
      [0x0D, 0x0C, 0x0B, 0x0A, 9, 8, 7].length ≤ 7 ∧ entry.stored.toNat ≤ 223 ∧
      entry.plen.toNat ≤ entry.stored.toNat + 7 ∧
      ({ entry with plen := 21 } : FastPacketState).stored.toNat + 7 < ({ entry with plen := 21 } : FastPacketState).plen.toNat ∧
      ({ entry with stored := 223 } : FastPacketState).stored.toNat ≤ 223 := by decide

/-- `plen = stored` exactly. -/
theorem witness_FpEmitAppendsTheTrimmedChunks :
    (sNext { entry with plen := 13 } []).fpt.get (129029 : Pgn).toNat = some { entry with plen := 13 } ∧
      ({ entry with plen := 13 } : FastPacketState).plen.toNat ≤ ({ entry with plen := 13 } : FastPacketState).stored.toNat := by
  decide

theorem witness_inv_sE : Inv sE := by decide

theorem witness_CompletionEmitsExactlyOnce :
    Inv sE ∧ (after (exec (.fpNext 1 1) sE)).map (fun t => decide (t.out ≠ sE.out)) = some true := by decide

/-- Frames 1 and 3, of which both are needed. -/
def laterFrames : List (BitVec 5 × List Byte) := [(1, [7, 6, 5, 4, 3, 2, 1]), (3, [0xFF, 0xFF, 0xFF, 0xFF, 0xFF, 2, 1])]

/-- `plen = 27`: 13 + 7 + 7 bytes are exactly enough. -/
theorem witness_ArrivalOrderDoesNotMatter :
    Inv (sNext { entry with plen := 27 } []) ∧
      (sNext { entry with plen := 27 } []).fpt.get (sNext { entry with plen := 27 } []).cf.pgn.toNat =
        some { entry with plen := 27 } ∧
      laterFrames.Perm laterFrames.reverse ∧ (laterFrames.map Prod.fst).Nodup ∧
      ∀ x ∈ laterFrames, entry.frames.get x.1.toNat = none ∧ x.2.length ≤ 7 ∧
        entry.stored.toNat + (laterFrames.map fun y => y.2.length).sum < 27 + x.2.length := by decide

theorem witness_ArrivalOrder_completes :
    (after (feedLater 1 laterFrames (sNext { entry with plen := 27 } []))).map (fun t => t.out.length) = some 1 := by decide

theorem witness_ReplayedLaterFrameChangesNothing :
    (after (exec (.fpNext 1 1) (sNext { entry with plen := 27 } [7, 6, 5, 4, 3, 2, 1, 0x21]))).map
        (fun t => (decide (t.fpt ≠ [(129029, { entry with plen := 27 })]), (t.fpt.get 129029).isSome)) =
      some (true, true) := by decide

/-- Its clauses: each operation with a second PGN in the table. -/
theorem witness_OtherPgnsAreUntouched :
    (130306 : Pgn) ≠ sE.cf.pgn ∧ (after (exec (.fpFirst 3 9000) sE)).isSome ∧ (after (exec (.fpNext 1 1) sE)).isSome ∧
      (after (exec (.fpEmit 129029 0x23) (sNext { entry with plen := 13 } []))).isSome := by decide

/-- Its two cases, each forwarding a record. -/
theorem witness_SourceAddressIsNoKey :
    (after (exec (.fpNext 1 1) sE)).map (fun t => t.out.length) = some 1 ∧
      (after (exec (.fpNext 1 1) { sE with cf := { sE.cf with source := 0x99 } })).map (fun t => t.out.length) = some 1 ∧
      (after (exec (.fpFirst 3 9000) sE)).isSome := by decide

theorem witness_EntryIsBounded : Inv sE ∧ sE.fpt.get (129029 : Pgn).toNat = some entry := by decide

theorem witness_OversizedSequenceNeverCompletes :
    Inv (sNext { entry with plen := 224 } [7, 6, 5, 4, 3, 2, 1, 0x21]) ∧
      (sNext { entry with plen := 224 } []).fpt.get (129029 : Pgn).toNat = some { entry with plen := 224 } ∧
      223 < ({ entry with plen := 224 } : FastPacketState).plen.toNat ∧
      (after (exec (.fpNext 1 1) (sNext { entry with plen := 224 } [7, 6, 5, 4, 3, 2, 1, 0x21]))).isSome := by decide

/-! ### Pipeline -/

/-- Twelve bytes of the 13 of a frame whose type byte announces 9 data bytes. -/
def sReserved : State := { sF with rxbuf := [0x09, 0x05, 0x12, 0xF1, 0x09, 0x34, 0x12, 0xEE, 0xEE, 0xEE, 0xEE, 0xEE] }

/-- A frame waits for its end marker in DELIM mode, under a configuration. -/
def sWait (cfg : Cfg) (f : Wire) : State := { State.construct cfg with rxbuf := 0xAA :: (f.body ++ []) }

/-- A state with the given bytes in RXBUF. -/
def sBuf (cfg : Cfg) (buf : List Byte) (skip : Bool) : State := { State.construct cfg with rxbuf := buf, skip := skip }

/-- What the framer operation answers to the next byte. -/
def framed (b : Byte) (s : State) : Option Ret :=
  (after (exec (framerOf s) { s with rxbuf := s.rxbuf ++ [b] })).map fun t => t.ret

/-- A frame of the PGN with no data. -/
def emptyFast : Wire := { typeHigh := 0, idHigh := 3, pgn := 129029, source := 0x23, data := [] }

/-- A state, the byte that arrives, and what the framer makes of it: need more data; a framer drop; a frame that DEC
drops; a filtered frame; a single frame; a frame of a FAST PGN without data; a first frame. -/
def rxClauses : List (State × Byte × Ret) :=
  [(sD, 0xAA, .needMoreData),
   (sBuf cfgD [0xAA] false, 0x55, .dropped .xRunt),
   (sReserved, 0, .frame (sReserved.rxbuf ++ [0])),
   (sWait { cfgD with excl := [130306] } windFrame, 0x55, .frame windFrame.body),
   (sWait cfgD windFrame, 0x55, .frame windFrame.body),
   (sWait cfgD emptyFast, 0x55, .frame emptyFast.body),
   (sWait cfgD firstFrame, 0x55, .frame firstFrame.body)]

/-- Every clause is met; the later frame of the last form is the next theorem's. -/
theorem witness_RxRunsItsOperationsInOrder :
    (∀ c ∈ rxClauses, Inv c.1 ∧ framed c.2.1 c.1 = some c.2.2) ∧
      isFast cfgD.fast 129029 = true ∧ isFast cfgD.fast 130306 = false := by decide

theorem witness_RxRuns_later :
    (after (exec (.rx 0x55 0) (sWait cfgD { firstFrame with data := laterFrameData 1 1 [7] }))).map (fun t => t.diag) =
      some [⟨.xFpNostart, some 129029⟩] := by decide

theorem witness_RxLeavesNothingToCut : (after (exec (.rx 0x55 100) sInput)).isSome := by decide

theorem witness_RxAppendsAtMostOneRecord : Inv sInput ∧ (after (exec (.rx 0x55 100) sInput)).isSome := by decide

/-- Its clauses: a byte behind the start marker; the start marker; noise; the 12th byte of a slot. -/
theorem witness_IncompleteFrameIsOnlyBuffered :
    RxbufShape { sD with rxbuf := [0xAA] } ∧ sD.skip = false ∧ sD.cfg.mode = .delim ∧ (0xAA : Byte) ≠ 0x55 ∧
      RxbufShape sD ∧ sD.rxbuf = [] ∧ (0x55 : Byte) ≠ 0xAA ∧
      RxbufShape { sF with rxbuf := slot.take 11 } ∧ (slot.take 11).length < 12 ∧ sF.cfg.mode = .fixed := by decide

theorem witness_SeparatorByteIsDiscarded :
    ({ sF with skip := true } : State).cfg.mode = .fixed ∧ ({ sF with skip := true } : State).skip = true ∧
      ({ sF with skip := true } : State).rxbuf = [] := by decide

theorem witness_DelimSingleFrameReachesOut :
    (sWait cfgD windFrame).cfg.mode = .delim ∧ windFrame.data.length ≤ 8 ∧
      (sWait cfgD windFrame).rxbuf = 0xAA :: (windFrame.body ++ []) ∧ (0x55 : Byte) ∉ windFrame.body ++ [] ∧
      allowed cfgD (windFrame.pgn.zeroExtend 32) = true ∧ isFast cfgD.fast (windFrame.pgn.zeroExtend 32) = false := by decide

/-- `02 05 12 F1 09 34 12` with six bytes of padding (program P2). -/
def headingFrame : Wire := { typeHigh := 0, idHigh := 2, pgn := 127250, source := 0x05, data := [0x34, 0x12] }

theorem witness_FixedSingleFrameReachesOut :
    ({ sF with rxbuf := slot.take 12 } : State).cfg.mode = .fixed ∧ sF.skip = false ∧
      headingFrame.data.length + [0xEE, 0xEE, 0xEE, 0xEE, 0xEE, 0xEE].length = 8 ∧
      slot.take 12 ++ [0xEE] = headingFrame.fixed [0xEE, 0xEE, 0xEE, 0xEE, 0xEE, 0xEE] ∧
      allowed cfgF (headingFrame.pgn.zeroExtend 32) = true ∧ isFast cfgF.fast (headingFrame.pgn.zeroExtend 32) = false := by
  decide

theorem witness_FixedReservedLengthIsDropped :
    sReserved.cfg.mode = .fixed ∧ sReserved.skip = false ∧ sReserved.rxbuf.length = 12 ∧
      8 < ((sReserved.rxbuf ++ [0]).getD 0 0).toNat % 16 := by decide

theorem witness_FilteredFrameLeavesDiagOnly :
    (sWait { cfgD with excl := [130306] } windFrame).cfg.mode = .delim ∧ windFrame.data.length ≤ 8 ∧
      (sWait { cfgD with excl := [130306] } windFrame).rxbuf = 0xAA :: (windFrame.body ++ []) ∧
      (0x55 : Byte) ∉ windFrame.body ++ [] ∧
      allowed { cfgD with excl := [130306] } (windFrame.pgn.zeroExtend 32) = false := by decide

theorem admits_wait : Admits (sWait cfgD firstFrame) (firstFrame.pgn.zeroExtend 32) 1000 := by
  intro t h
  cases h

/-- `plen = 20`, six payload bytes. -/
theorem witness_FirstFrameStartsCollecting :
    ((sWait cfgD firstFrame).cfg.mode = .delim ∧ firstFrame.data = firstFrameData 1 20 [1, 2, 3, 4, 5, 6] ∧
      ([1, 2, 3, 4, 5, 6] : List Byte).length ≤ 6 ∧ ([1, 2, 3, 4, 5, 6] : List Byte).length < (20 : Byte).toNat ∧
      (sWait cfgD firstFrame).rxbuf = 0xAA :: firstFrame.body ∧ (0x55 : Byte) ∉ firstFrame.body ∧
      allowed cfgD (firstFrame.pgn.zeroExtend 32) = true ∧ isFast cfgD.fast (firstFrame.pgn.zeroExtend 32) = true) ∧
      Admits (sWait cfgD firstFrame) (firstFrame.pgn.zeroExtend 32) 1000 :=
  ⟨by decide, admits_wait⟩

/-- Its cases: DELIM; FIXED with 11 bytes; FIXED with a separator pending. -/
theorem witness_EarlierTimeStampsAreNotKept :
    (Inv (sBuf cfgD [0xAA] false) ∧ sD.cfg.mode = .delim ∧ (0 : Byte) ≠ 0x55) ∧
      (Inv (sBuf cfgF (slot.take 11) false) ∧ sF.cfg.mode = .fixed ∧ (slot.take 11).length < 12) ∧
      Inv (sBuf cfgF [] true) :=
  ⟨by decide, by decide, by decide⟩

/-- Two candidates of 15 and 16 bytes that differ from the 15th byte on. -/
theorem witness_FifteenByteCaptureSuffices :
    sD.cfg.mode = .delim ∧ (0x55 : Byte) ∉ windFrame.body ∧ (0x55 : Byte) ∉ windFrame.body ++ [7] ∧
      (0xAA :: windFrame.body ++ [0x55]).take 14 = (0xAA :: (windFrame.body ++ [7]) ++ [0x55]).take 14 ∧
      min (windFrame.body.length + 2) 15 = min ((windFrame.body ++ [7]).length + 2) 15 := by decide

theorem witness_ChunkingIsInvisible :
    RxbufShape { sD with rxbuf := [0xAA, 1] } ∧ SkipShape { sD with rxbuf := [0xAA, 1] } ∧
      RxbufShape { sF with rxbuf := slot.take 12 } ∧ SkipShape { sF with rxbuf := slot.take 12 } := by decide

/-! ### The whole machine -/

/-- The state `sE`, the completing byte of its frame 1 waiting as an event. -/
def sStep : State :=
  { sE with
    rxbuf := 0xAA :: ({ firstFrame with data := laterFrameData 1 1 [7, 8, 9, 0x0A, 0x0B, 0x0C, 0x0D] } : Wire).body
    input := [⟨.rx 1030, [0x55]⟩] }

/-- The witness of StepKeepsTheInvariant, ConfigurationIsStatic and StreamsAreAppendOnly. -/
theorem witness_step_completes : Inv sStep ∧ EventsOnly sStep ∧ (after (step sStep)).map (fun t => (t.fpt, t.out.length)) =
    some ([], 1) := by decide

theorem witness_StepKeepsCanonicalStorage : Memory.wf sStep ∧ (after (step sStep)).isSome := by decide

theorem witness_EntriesLeaveOnlyByCompletion :
    sE.fpt.get (129029 : Pgn).toNat = some entry ∧
      (after (exec (.fpNext 1 1) sE)).map (fun t => t.fpt.get (129029 : Pgn).toNat) = some none := by decide

theorem witness_ThrottleRecordsOnlyAdvance :
    sE.thr.get (129029 : Pgn).toNat = some 1000 ∧ (after (exec (.fpFirst 3 6000) sE)).map (fun t => t.thr) =
      some [(129029, 6000)] := by decide

/-- The boundary lengths of its clauses: no byte, no data, a body of 0 and of 4 bytes, a later frame's control byte. -/
theorem witness_InputThatSelectsNoOperation :
    (after (step { sD with input := [⟨.rx 5, []⟩] })) = some sD ∧
      (after (step { sF with skip := true, input := [⟨.separator, []⟩] })) = some { sF with skip := true } ∧
      (after (step { sD with input := [⟨.control 5, []⟩] })).map (fun t => t.diag) = some [⟨.xFpEmpty, some 0⟩] ∧
      (after (step { sD with input := [⟨.body, []⟩] })).map (fun t => t.diag) = some [⟨.xRunt, none⟩] ∧
      (after (step { sD with input := [⟨.body, [1, 2, 3, 4]⟩] })).map (fun t => t.diag) = some [⟨.xShort, none⟩] ∧
      (after (step { sE with input := [⟨.throttle 129029 9000, []⟩] })) = some sE := by decide

/-- A chunk with another request behind it; one step takes one byte. -/
theorem witness_ChunkIsDeliveredByteByByte :
    (after (step { sD with input := [⟨.rx 5, [0xAA, 0x23]⟩, ⟨.reset, []⟩] })) =
      some { sD with rxbuf := [0xAA], input := [⟨.rx 5, [0x23]⟩, ⟨.reset, []⟩] } := by decide

theorem witness_EventsAreNeverRefused : EventsOnly sInput ∧ sInput.input.length = 2 := by decide

/-- The witness of AnswersAreNeverRead too: SF.EMIT leaves `ret`, FLT writes it. -/
theorem witness_StreamsAreNeverRead :
    (after (exec (.fpNext 1 1) sE)).isSome ∧ (after (exec .sfEmit sE)).map (fun t => t.ret) = some .nothing ∧
      (after (exec (.flt 1) sE)).map (fun t => t.ret) = some (.verdict true) := by decide

end Sys2Proof.Tests
end

section
/-! PROOFS about the state (spec/10_state.md). What each operation answers when it answers a next state, said once
(`Effect`), and from it: what only grows or advances, what is never read, and the invariant of the machine. -/

namespace Sys2Proof.StateLaws

open Sys2Proof.Machine Sys2Proof.Safety

/-! ## What an operation can answer -/

/-- DEC on the state, said once (R110). -/
theorem runDec_cases (body : List Byte) (s : State) :
    (∃ code, decodeBody body = .dropped code ∧ runDec body s = (.dropped code, s.dropFrame code none)) ∨
    ∃ cf, decodeBody body = .ok cf ∧ runDec body s = (.ok cf, s.setCf cf) := by
  unfold runDec
  cases decodeBody body with
  | dropped code => exact .inl ⟨code, rfl, rfl⟩
  | ok cf => exact .inr ⟨cf, rfl, rfl⟩

/-- An operation run by itself leaves its result in `ret` (the model's own field, log 5). -/
def withRet (s : State) (r : Ret) : State := { s with ret := r }

/-- Operation `i` leads from `s` to `t`: the graph of `exec` without its faults (`effect_of_exec`, `exec_of_effect`).
The two framer operations share a constructor, since each runs under its own MODE only. -/
inductive Effect : Instr → State → State → Prop
  | rx (b : Byte) (now : Nat) (s : State) : Effect (.rx b now) s (runRx b now s)
  | reset (s : State) : Effect .reset s (runReset s)
  | framer (s : State) : Effect (framerOf s) s (withRet (runFramer s).2 (retOfFrm (runFramer s).1))
  | skip (s : State) (h : s.separatorReady = true) : Effect .frmSkip s (runSkip s)
  | dec (body : List Byte) (s : State) (h : body ≠ []) :
      Effect (.dec body) s (withRet (runDec body s).2 (retOfDec (runDec body s).1))
  | flt (p : Pgn) (s : State) : Effect (.flt p) s (withRet s (.verdict (allowed s.cfg p)))
  | thrAccept (p : Pgn) (now : Nat) (s : State) :
      Effect (.thrAccept p now) s (withRet (runThrAccept p now s).2 (.verdict (runThrAccept p now s).1))
  | sfEmit (s : State) : Effect .sfEmit s (runSfEmit s)
  | fpFirst (seq : BitVec 3) (now : Nat) (s : State) : Effect (.fpFirst seq now) s (runFpFirst seq now s)
  | fpNext (seq : BitVec 3) (fc : BitVec 5) (s : State) : Effect (.fpNext seq fc) s (runFpNext seq fc s)
  | fpEmit (p : Pgn) (src : Byte) (s : State) (e : FastPacketState) (h : s.fptGet p = some e)
      (hc : completeEntry e = true) : Effect (.fpEmit p src) s ((s.fptClear p).emit p src (payloadOf e))

theorem entryComplete_iff (p : Pgn) (s : State) :
    entryComplete p s = true ↔ ∃ e, s.fptGet p = some e ∧ completeEntry e = true := by
  simp [entryComplete, Option.any_eq_true]

/-- The framer operation of DELIM mode (R176). -/
theorem framer_of_delim {s : State} (hm : s.cfg.mode = .delim) :
    framerOf s = .frmDelim ∧ runFramer s = runDelim s := by
  unfold framerOf runFramer
  rw [hm]
  exact ⟨rfl, rfl⟩

/-- The framer operation of FIXED mode (R176). -/
theorem framer_of_fixed {s : State} (hm : s.cfg.mode = .fixed) :
    framerOf s = .frmFixed ∧ runFramer s = runFixed s := by
  unfold framerOf runFramer
  rw [hm]
  exact ⟨rfl, rfl⟩

theorem effect_of_exec {i : Instr} {s t : State} (h : exec i s = .next t) : Effect i s t := by
  cases i with
  | rx b now => cases h; exact .rx b now s
  | reset => cases h; exact .reset s
  | frmDelim =>
    simp only [exec, execFrmDelim] at h
    split at h
    · obtain ⟨hop, hrun⟩ := framer_of_delim ‹_›
      cases h
      have e := Effect.framer s
      rwa [hop, hrun] at e
    · cases h
  | frmFixed =>
    simp only [exec, execFrmFixed] at h
    split at h
    · obtain ⟨hop, hrun⟩ := framer_of_fixed ‹_›
      cases h
      have e := Effect.framer s
      rwa [hop, hrun] at e
    · cases h
  | frmSkip =>
    simp only [exec, execFrmSkip] at h
    split at h
    · cases h; exact .skip s ‹_›
    · cases h
  | dec body =>
    simp only [exec, execDec] at h
    split at h
    · cases h
    · cases h; exact .dec body s ‹_›
  | flt p => cases h; exact .flt p s
  | thrAccept p now => cases h; exact .thrAccept p now s
  | sfEmit => cases h; exact .sfEmit s
  | fpFirst seq now => cases h; exact .fpFirst seq now s
  | fpNext seq fc => cases h; exact .fpNext seq fc s
  | fpEmit p src =>
    simp only [exec, execFpEmit] at h
    split at h
    · rename_i hc
      obtain ⟨e, hg, hc⟩ := (entryComplete_iff p s).1 hc
      rw [runFpEmit_of_get hg] at h
      cases h
      exact .fpEmit p src s e hg hc
    · cases h

theorem exec_of_effect {i : Instr} {s t : State} (h : Effect i s t) : exec i s = .next t := by
  cases h with
  | framer =>
    cases hm : s.cfg.mode with
    | delim =>
      obtain ⟨hop, hrun⟩ := framer_of_delim hm
      rw [hop, hrun]
      simp only [exec, execFrmDelim, if_pos hm]
      rfl
    | fixed =>
      obtain ⟨hop, hrun⟩ := framer_of_fixed hm
      rw [hop, hrun]
      simp only [exec, execFrmFixed, if_pos hm]
      rfl
  | skip _ h => simp only [exec, execFrmSkip, if_pos h]
  | dec body _ h => simp only [exec, execDec, if_neg h]; rfl
  | fpEmit p src _ e h hc =>
    simp only [exec, execFpEmit, if_pos ((entryComplete_iff p s).2 ⟨e, h, hc⟩), runFpEmit_of_get h]
  | rx | reset | flt | thrAccept | sfEmit | fpFirst | fpNext => rfl

/-! ## What only grows, and what only advances (R25, R29, R30) -/

/-- The configuration stays and the two streams grow at their ends. -/
structure Appends (s t : State) : Prop where
  cfg : t.cfg = s.cfg
  out : s.out <+: t.out
  diag : s.diag <+: t.diag

/-- Every throttle record stays, or gives way to one that is MIN_INTERVAL later at the earliest (R136). -/
def ThrAdvances (s t : State) : Prop :=
  ∀ k a, s.thr.get k = some a → ∃ b, t.thr.get k = some b ∧ (b = a ∨ a + s.cfg.minInterval ≤ b)

/-- What every operation but RESET does to configuration, streams and throttle records. -/
structure Evolves (s t : State) : Prop extends Appends s t where
  thr : ThrAdvances s t

theorem Appends.refl (s : State) : Appends s s := ⟨rfl, List.prefix_rfl, List.prefix_rfl⟩

theorem thrAdvances_of_eq {s t : State} (h : t.thr = s.thr) : ThrAdvances s t :=
  fun _ a ha => ⟨a, by rw [h]; exact ha, .inl rfl⟩

theorem thrAdvances_thrSet {s : State} {p : Pgn} {now : Nat} (h : Admits s p now) : ThrAdvances s (s.thrSet p now) := by
  intro k a ha
  by_cases hk : k = p.toNat
  · subst hk
    have := h a ha
    exact ⟨now, Table.get_set_self _ _ _, .inr (by omega)⟩
  · exact ⟨a, by rw [State.thrSet_thr, Table.get_set_ne _ _ hk]; exact ha, .inl rfl⟩

theorem Evolves.trans {s t u : State} (h₁ : Evolves s t) (h₂ : Evolves t u) : Evolves s u where
  cfg := h₂.cfg.trans h₁.cfg
  out := h₁.out.trans h₂.out
  diag := h₁.diag.trans h₂.diag
  thr := by
    intro k a ha
    obtain ⟨b, hb, hab⟩ := h₁.thr k a ha
    obtain ⟨c, hc, hbc⟩ := h₂.thr k b hb
    rw [h₁.cfg] at hbc
    exact ⟨c, hc, by omega⟩

theorem evolves_dropFrame (s : State) (code : DropCode) (info : Option Pgn) : Evolves s (s.dropFrame code info) :=
  ⟨⟨rfl, List.prefix_rfl, List.prefix_append _ _⟩, thrAdvances_of_eq rfl⟩

theorem evolves_of_stageFrame {s t : State} (f : StageFrame s t) (h : ThrAdvances s t) : Evolves s t := by
  obtain ⟨o, d, ho, hd, -, -⟩ := f.streams
  exact ⟨⟨f.cfg, ⟨o, ho.symm⟩, ⟨d, hd.symm⟩⟩, h⟩

theorem evolves_runFramer (s : State) : Evolves s (runFramer s).2 := by
  have f := framerFrame_runFramer s
  refine ⟨⟨f.cfg, by rw [f.out], ?_⟩, thrAdvances_of_eq f.thr⟩
  rw [runFramer_diag s]
  split
  · exact List.prefix_append _ _
  · exact List.prefix_rfl

theorem storeEntry_thr (p : Pgn) (src : Byte) (e : FastPacketState) (s : State) :
    (storeEntry p src e s).thr = s.thr := by
  rcases storeEntry_cases p src e s with ⟨-, h⟩ | ⟨-, h⟩ <;> rw [h] <;> rfl

theorem evolves_runFpFirst (seq : BitVec 3) (now : Nat) (s : State) : Evolves s (runFpFirst seq now s) := by
  refine evolves_of_stageFrame (stageFrame_runFpFirst seq now s) ?_
  rcases runFpFirst_cases seq now s with ⟨-, h⟩ | ⟨-, -, h⟩ | ⟨-, ha, h⟩ <;> rw [h]
  · exact thrAdvances_of_eq rfl
  · exact thrAdvances_of_eq rfl
  · have hthr := storeEntry_thr s.cf.pgn s.cf.source (firstEntry seq s.cf.data) (s.thrSet s.cf.pgn now)
    unfold ThrAdvances
    rw [hthr]
    exact thrAdvances_thrSet ha

theorem evolves_runFpNext (seq : BitVec 3) (fc : BitVec 5) (s : State) : Evolves s (runFpNext seq fc s) := by
  refine evolves_of_stageFrame (stageFrame_runFpNext seq fc s) (thrAdvances_of_eq ?_)
  rcases runFpNext_cases seq fc s with ⟨-, h⟩ | ⟨e, -, ⟨-, h⟩ | ⟨-, -, h⟩ | ⟨-, -, h⟩⟩ <;> rw [h]
  · rfl
  · rfl
  · rfl
  · exact storeEntry_thr _ _ _ s

/-- REASSEMBLE, said once (R146). -/
theorem reassemble_cases (now : Nat) (s : State) :
    reassemble now s = s.dropFrame .xFpEmpty (some s.cf.pgn) ∨
    (∃ seq, reassemble now s = runFpFirst seq now s) ∨
    ∃ seq fc, reassemble now s = runFpNext seq fc s := by
  unfold reassemble
  split
  · exact .inl rfl
  · split
    · exact .inr (.inl ⟨_, rfl⟩)
    · exact .inr (.inr ⟨_, _, rfl⟩)

theorem evolves_runSfEmit (s : State) : Evolves s (runSfEmit s) :=
  evolves_of_stageFrame (stageFrame_runSfEmit s) (thrAdvances_of_eq rfl)

theorem evolves_routeFrame (now : Nat) (s : State) : Evolves s (routeFrame now s) := by
  rcases routeFrame_cases now s with ⟨-, h⟩ | ⟨-, -, h⟩ | ⟨-, -, h⟩ <;> rw [h]
  · exact evolves_dropFrame s _ _
  · exact evolves_runSfEmit s
  · rcases reassemble_cases now s with h | ⟨seq, h⟩ | ⟨seq, fc, h⟩ <;> rw [h]
    · exact evolves_dropFrame s _ _
    · exact evolves_runFpFirst seq now s
    · exact evolves_runFpNext seq fc s

/-- The decoded-frame registers are none of the fields compared. -/
theorem evolves_process (body : List Byte) (now : Nat) (s : State) : Evolves s (process body now s) := by
  rcases process_cases body now s with ⟨code, -, h⟩ | ⟨cf, -, h⟩ <;> rw [h]
  · exact evolves_dropFrame s _ _
  · have f := evolves_routeFrame now (s.setCf cf)
    exact ⟨⟨f.cfg, f.out, f.diag⟩, f.thr⟩

theorem evolves_runRx (b : Byte) (now : Nat) (s : State) : Evolves s (runRx b now s) := by
  have start : Evolves s (s.pushBytes [b]) := ⟨⟨rfl, List.prefix_rfl, List.prefix_rfl⟩, thrAdvances_of_eq rfl⟩
  exact rxLoop_keeps (Evolves s) now (fun u hu => hu.trans (evolves_runFramer u))
    (fun body u hu => hu.trans (evolves_process body now u)) _ start

theorem evolves_runThrAccept (p : Pgn) (now : Nat) (s : State) : Evolves s (runThrAccept p now s).2 := by
  rcases runThrAccept_cases p now s with ⟨ha, h⟩ | ⟨-, h⟩ <;> rw [h]
  · exact ⟨⟨rfl, List.prefix_rfl, List.prefix_rfl⟩, thrAdvances_thrSet ha⟩
  · exact ⟨Appends.refl s, thrAdvances_of_eq rfl⟩

theorem evolves_runDec (body : List Byte) (s : State) : Evolves s (runDec body s).2 := by
  rcases runDec_cases body s with ⟨code, -, h⟩ | ⟨cf, -, h⟩ <;> rw [h]
  · exact evolves_dropFrame s _ _
  · exact ⟨⟨rfl, List.prefix_rfl, List.prefix_rfl⟩, thrAdvances_of_eq rfl⟩

theorem Evolves.withRet {s t : State} (h : Evolves s t) (r : Ret) : Evolves s (StateLaws.withRet t r) :=
  ⟨⟨h.cfg, h.out, h.diag⟩, h.thr⟩

theorem effect_evolves {i : Instr} {s t : State} (hi : i ≠ .reset) (h : Effect i s t) : Evolves s t := by
  cases h with
  | rx b now => exact evolves_runRx b now s
  | reset => exact absurd rfl hi
  | framer => exact (evolves_runFramer s).withRet _
  | skip => exact ⟨⟨rfl, List.prefix_rfl, List.prefix_rfl⟩, thrAdvances_of_eq rfl⟩
  | dec body => exact (evolves_runDec body s).withRet _
  | flt p => exact ⟨⟨rfl, List.prefix_rfl, List.prefix_rfl⟩, thrAdvances_of_eq rfl⟩
  | thrAccept p now => exact (evolves_runThrAccept p now s).withRet _
  | sfEmit => exact evolves_runSfEmit s
  | fpFirst seq now => exact evolves_runFpFirst seq now s
  | fpNext seq fc => exact evolves_runFpNext seq fc s
  | fpEmit p src => exact ⟨⟨rfl, List.prefix_append _ _, List.prefix_rfl⟩, thrAdvances_of_eq rfl⟩

theorem exec_appends {i : Instr} {s t : State} (h : exec i s = .next t) : Appends s t := by
  by_cases hi : i = .reset
  · subst hi
    cases h
    exact ⟨rfl, List.prefix_rfl, List.prefix_rfl⟩
  · exact (effect_evolves hi (effect_of_exec h)).toAppends

theorem step_appends {s t : State} (h : step s = .next t) : Appends s t := by
  rcases step_cases h with ⟨-, rfl⟩ | ⟨r, rest, -, ⟨i, -, hx⟩ | ⟨e, -, rfl⟩⟩
  · exact Appends.refl t
  · have f := exec_appends hx
    exact ⟨f.cfg, f.out, f.diag⟩
  · rcases passOver_cases e { s with input := remaining r ++ rest } with h | ⟨code, info, h⟩ <;> rw [h]
    · exact ⟨rfl, List.prefix_rfl, List.prefix_rfl⟩
    · exact ⟨rfl, List.prefix_rfl, List.prefix_append _ _⟩

/-- Settles O54, from what every operation but RESET does to the throttle records (`effect_evolves`). -/
theorem throttleRecordsOnlyAdvance : Obligations.ThrottleRecordsOnlyAdvance :=
  fun _ _ _ p a hi hx ha => (effect_evolves hi (effect_of_exec hx)).thr p.toNat a ha

/-- Settles O51. -/
theorem configurationIsStatic : Obligations.ConfigurationIsStatic :=
  fun _ _ h => (step_appends h).cfg

/-- Settles O52. -/
theorem streamsAreAppendOnly : Obligations.StreamsAreAppendOnly := by
  intro s t h
  obtain ⟨-, ⟨o, ho⟩, ⟨d, hd⟩⟩ := step_appends h
  exact ⟨⟨o, ho.symm⟩, ⟨d, hd.symm⟩⟩

/-! ## The bounds of an entry (R28) -/

/-- Settles O30: its keys are 32 frame counters, and `stored` is the sum of its chunks. -/
theorem entryIsBounded : Obligations.EntryIsBounded := by
  intro s p e hinv hget
  obtain ⟨-, -, ⟨-, -, hfpt, -⟩, -⟩ := hinv
  obtain ⟨-, hentry⟩ := hfpt _ (Table.mem_of_get hget)
  obtain ⟨hwf, hkeys, -⟩ := id hentry
  exact ⟨length_le_of_keys_lt hwf 32 hkeys, entryInv_stored_le hentry⟩

/-! ## Fields that no operation reads (R30) -/

/-- `f` changes only what no meaning reads: it keeps every field that one reads, and it can be done before or after
every update of the state. -/
structure Unread (f : State → State) : Prop where
  cfg : ∀ s, (f s).cfg = s.cfg
  rxbuf : ∀ s, (f s).rxbuf = s.rxbuf
  skip : ∀ s, (f s).skip = s.skip
  fpt : ∀ s, (f s).fpt = s.fpt
  thr : ∀ s, (f s).thr = s.thr
  cf : ∀ s, (f s).cf = s.cf
  setRxbuf : ∀ s buf, (f s).setRxbuf buf = f (s.setRxbuf buf)
  setSkip : ∀ s b, (f s).setSkip b = f (s.setSkip b)
  fptSet : ∀ s p e, (f s).fptSet p e = f (s.fptSet p e)
  fptClear : ∀ s p, (f s).fptClear p = f (s.fptClear p)
  thrSet : ∀ s p now, (f s).thrSet p now = f (s.thrSet p now)
  setCf : ∀ s cf, (f s).setCf cf = f (s.setCf cf)
  emit : ∀ s p src payload, (f s).emit p src payload = f (s.emit p src payload)
  dropFrame : ∀ s code info, (f s).dropFrame code info = f (s.dropFrame code info)

section
variable {f : State → State} (hf : Unread f)
include hf

/-! ### The framer -/

theorem Unread.runDelim (s : State) : runDelim (f s) = ((runDelim s).1, f (runDelim s).2) := by
  unfold Machine.runDelim
  rw [hf.rxbuf]
  rcases cutDelim s.rxbuf with ⟨_ | w, rest⟩
  · simp only [hf.setRxbuf]
  · cases hw : delimCheck w <;> simp only [hw, hf.setRxbuf, hf.dropFrame]

theorem Unread.runSkip (s : State) : runSkip (f s) = f (runSkip s) := by
  simp only [Machine.runSkip, hf.rxbuf, hf.setRxbuf, hf.setSkip]

theorem Unread.separatorReady (s : State) : (f s).separatorReady = s.separatorReady := by
  simp only [State.separatorReady, hf.skip, hf.rxbuf]

theorem Unread.skipIfReady (s : State) : skipIfReady (f s) = f (skipIfReady s) := by
  unfold Machine.skipIfReady
  rw [hf.separatorReady, hf.runSkip]
  split <;> rfl

theorem Unread.cutFixed (s : State) : cutFixed (f s) = ((cutFixed s).1, f (cutFixed s).2) := by
  unfold Machine.cutFixed
  simp only [hf.rxbuf, hf.setRxbuf, hf.setSkip, hf.skipIfReady]
  split <;> rfl

theorem Unread.runFixed (s : State) : runFixed (f s) = ((runFixed s).1, f (runFixed s).2) := by
  unfold Machine.runFixed
  simp only [hf.skipIfReady, hf.skip, hf.cutFixed]
  split <;> rfl

theorem Unread.runFramer (s : State) : runFramer (f s) = ((runFramer s).1, f (runFramer s).2) := by
  unfold Machine.runFramer
  rw [hf.cfg, hf.runDelim, hf.runFixed]
  cases s.cfg.mode <;> rfl

/-! ### The stages after it -/

theorem Unread.runDec (body : List Byte) (s : State) :
    runDec body (f s) = ((runDec body s).1, f (runDec body s).2) := by
  unfold Machine.runDec
  cases decodeBody body with
  | ok cf => simp only [hf.setCf]
  | dropped code => simp only [hf.dropFrame]

theorem Unread.runThrAccept (p : Pgn) (now : Nat) (s : State) :
    runThrAccept p now (f s) = ((runThrAccept p now s).1, f (runThrAccept p now s).2) := by
  have hv : thrVerdict p now (f s) = thrVerdict p now s := by
    unfold thrVerdict State.thrGet
    rw [hf.thr, hf.cfg]
  unfold Machine.runThrAccept
  rw [hv, hf.thrSet]
  split <;> rfl

theorem Unread.fptGet (p : Pgn) (s : State) : (f s).fptGet p = s.fptGet p := by
  unfold State.fptGet
  rw [hf.fpt]

theorem Unread.runFpEmit (p : Pgn) (src : Byte) (s : State) : runFpEmit p src (f s) = f (runFpEmit p src s) := by
  unfold Machine.runFpEmit
  rw [hf.fptGet]
  cases s.fptGet p with
  | none => rfl
  | some e => simp only [hf.fptClear, hf.emit]

theorem Unread.storeEntry (p : Pgn) (src : Byte) (e : FastPacketState) (s : State) :
    storeEntry p src e (f s) = f (storeEntry p src e s) := by
  unfold Machine.storeEntry
  rw [hf.fptSet, hf.runFpEmit]
  split <;> rfl

theorem Unread.runFpFirst (seq : BitVec 3) (now : Nat) (s : State) :
    runFpFirst seq now (f s) = f (runFpFirst seq now s) := by
  unfold Machine.runFpFirst
  rw [hf.cf, hf.runThrAccept]
  split
  · exact hf.dropFrame _ _ _
  · rcases Machine.runThrAccept s.cf.pgn now s with ⟨_ | _, t⟩
    · exact hf.dropFrame _ _ _
    · exact hf.storeEntry _ _ _ _

theorem Unread.runFpNext (seq : BitVec 3) (fc : BitVec 5) (s : State) :
    runFpNext seq fc (f s) = f (runFpNext seq fc s) := by
  unfold Machine.runFpNext
  rw [hf.cf, hf.fptGet]
  cases s.fptGet s.cf.pgn with
  | none => exact hf.dropFrame _ _ _
  | some e =>
    simp only [hf.dropFrame, hf.storeEntry]
    split
    · rfl
    · split <;> rfl

theorem Unread.reassemble (now : Nat) (s : State) : reassemble now (f s) = f (reassemble now s) := by
  unfold Machine.reassemble
  rw [hf.cf]
  cases controlOf s.cf.data with
  | none => exact hf.dropFrame _ _ _
  | some ctl =>
    simp only [hf.runFpFirst, hf.runFpNext]
    split <;> rfl

theorem Unread.runSfEmit (s : State) : runSfEmit (f s) = f (runSfEmit s) := by
  unfold Machine.runSfEmit
  rw [hf.cf, hf.emit]

theorem Unread.routeFrame (now : Nat) (s : State) : routeFrame now (f s) = f (routeFrame now s) := by
  unfold Machine.routeFrame
  rw [hf.cf, hf.cfg, hf.reassemble, hf.runSfEmit, hf.dropFrame]
  split
  · split <;> rfl
  · rfl

theorem Unread.process (body : List Byte) (now : Nat) (s : State) :
    process body now (f s) = f (process body now s) := by
  unfold Machine.process
  rw [hf.runDec]
  rcases Machine.runDec body s with ⟨_ | _, t⟩
  · show (Machine.routeFrame now (f t)).setCf .atRest = f ((Machine.routeFrame now t).setCf .atRest)
    rw [hf.routeFrame, hf.setCf]
  · rfl

/-! ### The loop of RX, and RESET -/

theorem Unread.rxLoop (now n : Nat) (s : State) : rxLoop n now (f s) = f (rxLoop n now s) := by
  induction n generalizing s with
  | zero => rfl
  | succ n ih =>
    unfold Machine.rxLoop
    rw [hf.runFramer]
    rcases Machine.runFramer s with ⟨_ | _ | _, t⟩
    · show Machine.rxLoop n now (Machine.process _ now (f t)) = _
      rw [hf.process, ih]
    · exact ih t
    · rfl

theorem Unread.runRx (b : Byte) (now : Nat) (s : State) : runRx b now (f s) = f (runRx b now s) := by
  have hpush : (f s).pushBytes [b] = f (s.pushBytes [b]) := by
    show (f s).setRxbuf ((f s).rxbuf ++ [b]) = f (s.setRxbuf (s.rxbuf ++ [b]))
    rw [hf.rxbuf, hf.setRxbuf]
  unfold Machine.runRx runChunk
  rw [hf.rxbuf, hpush, hf.rxLoop]

theorem Unread.framerOf (s : State) : framerOf (f s) = framerOf s := by
  unfold Safety.framerOf
  rw [hf.cfg]

end

/-- With `f` done before it, an operation ends in the same state with `f` done after it. The two hypotheses are about
what this change does to a result and at a RESET. -/
theorem Unread.effect {f : State → State} (hf : Unread f) (hret : ∀ s r, withRet (f s) r = f (withRet s r))
    (hreset : ∀ s, runReset (f s) = f (runReset s)) {i : Instr} {s t : State} (h : Effect i s t) :
    Effect i (f s) (f t) := by
  cases h with
  | rx b now => exact hf.runRx b now s ▸ .rx b now (f s)
  | reset => exact hreset s ▸ .reset (f s)
  | framer =>
    have e := Effect.framer (f s)
    rwa [hf.framerOf, hf.runFramer, hret] at e
  | skip _ h => exact hf.runSkip s ▸ .skip (f s) (by rwa [hf.separatorReady])
  | dec body _ h =>
    have e := Effect.dec body (f s) h
    rwa [hf.runDec, hret] at e
  | flt p =>
    have e := Effect.flt p (f s)
    rwa [hf.cfg, hret] at e
  | thrAccept p now =>
    have e := Effect.thrAccept p now (f s)
    rwa [hf.runThrAccept, hret] at e
  | sfEmit => exact hf.runSfEmit s ▸ .sfEmit (f s)
  | fpFirst seq now => exact hf.runFpFirst seq now s ▸ .fpFirst seq now (f s)
  | fpNext seq fc => exact hf.runFpNext seq fc s ▸ .fpNext seq fc (f s)
  | fpEmit p src _ e h hc =>
    have x := Effect.fpEmit p src (f s) e (by rwa [hf.fptGet]) hc
    rwa [hf.fptClear, hf.emit] at x

/-- Other records already on the two streams, and other requests to come. -/
def withHistory (o : List OutRecord) (d : List DiagRecord) (l : List Request) (s : State) : State :=
  { s with out := o ++ s.out, diag := d ++ s.diag, input := l }

theorem unread_withHistory (o : List OutRecord) (d : List DiagRecord) (l : List Request) :
    Unread (withHistory o d l) where
  cfg _ := rfl
  rxbuf _ := rfl
  skip _ := rfl
  fpt _ := rfl
  thr _ := rfl
  cf _ := rfl
  setRxbuf _ _ := rfl
  setSkip _ _ := rfl
  fptSet _ _ _ := rfl
  fptClear _ _ := rfl
  thrSet _ _ _ := rfl
  setCf _ _ := rfl
  emit _ _ _ _ := by simp only [withHistory, State.emit, List.append_assoc]
  dropFrame _ _ _ := by simp only [withHistory, State.dropFrame, List.append_assoc]

/-- Settles O57: what stands on OUT, on DIAG and in the input is `Unread`. -/
theorem streamsAreNeverRead : Obligations.StreamsAreNeverRead :=
  fun _ _ _ o d l h => exec_of_effect <|
    (unread_withHistory o d l).effect (fun _ _ => rfl) (fun _ => rfl) (effect_of_exec h)

/-! ## The invariant: the shapes of RXBUF and SKIP (R13, R44) -/

theorem rxbufShape_of_nil {s : State} (h : s.rxbuf = []) : RxbufShape s := by
  unfold RxbufShape
  rw [h]
  split
  · exact .inl rfl
  · exact Nat.zero_le _

theorem shapes_congr {s t : State} (hcfg : t.cfg = s.cfg) (hrxbuf : t.rxbuf = s.rxbuf) (hskip : t.skip = s.skip)
    (h : RxbufShape s ∧ SkipShape s) : RxbufShape t ∧ SkipShape t := by
  unfold RxbufShape SkipShape
  rw [hcfg, hrxbuf, hskip]
  exact h

/-- In DELIM mode the framer never sets SKIP; in FIXED mode it discards the separator as soon as it is there. -/
theorem skipShape_runFramer {s : State} (h : s.cfg.mode = .delim → s.skip = false) : SkipShape (runFramer s).2 := by
  unfold SkipShape
  rw [(framerFrame_runFramer s).cfg]
  unfold runFramer
  cases hm : s.cfg.mode with
  | delim => exact (runDelim_skip s).trans (h hm)
  | fixed =>
    simp only [reduceCtorEq, if_false]
    have ready : ∀ u : State, (skipIfReady u).skip = true → (skipIfReady u).rxbuf = [] := by
      intro u hu
      obtain ⟨he, -, hnil⟩ := skipIfReady_skip hu
      rwa [he]
    rcases runFixed_cases s with ⟨-, e, -, hnil⟩ | ⟨-, -, e⟩ | ⟨-, -, e⟩ <;> rw [e]
    · exact fun _ => hnil
    · exact ready s
    · exact ready _

theorem skip_of_skipShape {s : State} (h : SkipShape s) (hm : s.cfg.mode = .delim) : s.skip = false := by
  rwa [SkipShape, if_pos hm] at h

/-- Between two events no separator is both pending and there. -/
theorem separatorReady_of_skipShape {s : State} (h : SkipShape s) : s.separatorReady = false := by
  rw [Bool.eq_false_iff, ne_eq, separatorReady_iff]
  rintro ⟨hskip, hlen⟩
  unfold SkipShape at h
  split at h
  · simp [h] at hskip
  · simp [h hskip] at hlen

/-- What the framer leaves after one more byte has the shapes again: either it asks for more data, or the byte was the
last one of what it cut. -/
theorem shapes_runFramer_pushByte {s : State} (b : Byte) (hrx : RxbufShape s) (hskip : SkipShape s) :
    RxbufShape (runFramer (s.pushBytes [b])).2 ∧ SkipShape (runFramer (s.pushBytes [b])).2 := by
  refine ⟨?_, skipShape_runFramer fun hm => skip_of_skipShape (s := s) hskip hm⟩
  by_cases hmore : (runFramer (s.pushBytes [b])).1 = .needMoreData
  · exact runFramer_shape hmore
  · exact rxbufShape_of_nil (runFramer_pushByte hrx hmore).1

/-! ## The invariant: the tables and the widths (R11, R28, R113) -/

theorem atRest_pgn_lt : CanFrame.atRest.pgn.toNat < pgnCount := by decide

/-- The two parts of `Inv` that the framer leaves alone. -/
abbrev StoresInv (s : State) : Prop := TablesInv s ∧ WidthsInv s

theorem storesInv_congr {s t : State} (hfpt : t.fpt = s.fpt) (hthr : t.thr = s.thr) (hcf : t.cf = s.cf)
    (hout : t.out = s.out) (h : StoresInv s) : StoresInv t := by
  unfold StoresInv TablesInv WidthsInv
  rw [hfpt, hthr, hcf, hout]
  exact h

theorem storesInv_dropFrame {s : State} (code : DropCode) (info : Option Pgn) (h : StoresInv s) :
    StoresInv (s.dropFrame code info) :=
  storesInv_congr rfl rfl rfl rfl h

theorem storesInv_setCf {s : State} {cf : CanFrame} (hp : cf.pgn.toNat < pgnCount) (hd : cf.data.length ≤ 8)
    (h : StoresInv s) : StoresInv (s.setCf cf) := by
  obtain ⟨htables, -, -, hout⟩ := h
  exact ⟨htables, hp, hd, hout⟩

theorem storesInv_emit {s : State} {p : Pgn} (src : Byte) {payload : List Byte} (hp : p.toNat < pgnCount)
    (hl : payload.length ≤ 223) (h : StoresInv s) : StoresInv (s.emit p src payload) := by
  obtain ⟨htables, hpgn, hdata, hout⟩ := h
  refine ⟨htables, hpgn, hdata, fun r hr => ?_⟩
  rcases List.mem_append.1 hr with hr | hr
  · exact hout r hr
  · rw [List.mem_singleton.1 hr]
    exact ⟨hp, hl⟩

theorem storesInv_fptSet {s : State} {p : Pgn} {e : FastPacketState} (hp : p.toNat < pgnCount) (he : EntryInv e)
    (h : StoresInv s) : StoresInv (s.fptSet p e) := by
  obtain ⟨⟨hfptwf, hthrwf, hfpt, hthr⟩, hwidths⟩ := h
  refine ⟨⟨Table.wf_set _ _ hfptwf, hthrwf, fun x hx => ?_, hthr⟩, hwidths⟩
  rcases Table.mem_set hx with rfl | hx
  · exact ⟨hp, he⟩
  · exact hfpt x hx

theorem storesInv_fptClear {s : State} (p : Pgn) (h : StoresInv s) : StoresInv (s.fptClear p) := by
  obtain ⟨⟨hfptwf, hthrwf, hfpt, hthr⟩, hwidths⟩ := h
  exact ⟨⟨Table.wf_erase _ hfptwf, hthrwf, fun x hx => hfpt x (Table.mem_of_mem_erase hx), hthr⟩, hwidths⟩

theorem storesInv_thrSet {s : State} {p : Pgn} (now : Nat) (hp : p.toNat < pgnCount) (h : StoresInv s) :
    StoresInv (s.thrSet p now) := by
  obtain ⟨⟨hfptwf, hthrwf, hfpt, hthr⟩, hwidths⟩ := h
  refine ⟨⟨hfptwf, Table.wf_set _ _ hthrwf, hfpt, fun x hx => ?_⟩, hwidths⟩
  rcases Table.mem_set hx with rfl | hx
  · exact hp
  · exact hthr x hx

/-- An entry under its PGN is good. -/
theorem entryInv_of_fptGet {s : State} {p : Pgn} {e : FastPacketState} (h : StoresInv s) (hg : s.fptGet p = some e) :
    EntryInv e := by
  obtain ⟨⟨-, -, hfpt, -⟩, -⟩ := h
  exact (hfpt _ (Table.mem_of_get hg)).2

/-- Whatever `plen` says, a payload is no longer than the chunks of its entry (R162). -/
theorem length_payloadOf_le {e : FastPacketState} (hw : e.frames.wf) (hk : ∀ x ∈ e.frames, x.1 < 32)
    (hl : ∀ x ∈ e.frames, x.2.length ≤ if x.1 = 0 then 6 else 7) : (payloadOf e).length ≤ 223 :=
  calc (payloadOf e).length ≤ (combinedChunks e.frames).length := List.length_take_le' _ _
    _ = (e.frames.map fun x => x.2.length).sum := length_combinedChunks hw hk
    _ ≤ 223 := sum_lengths_le hw hk hl

/-- The store keeps the tables and widths when the entry is good unless complete, and its payload is short. -/
theorem storesInv_storeEntry {s : State} {p : Pgn} (src : Byte) {e : FastPacketState} (hp : p.toNat < pgnCount)
    (he : e.stored.toNat < e.plen.toNat → EntryInv e) (hl : (payloadOf e).length ≤ 223) (h : StoresInv s) :
    StoresInv (storeEntry p src e s) := by
  rcases storeEntry_cases p src e s with ⟨-, hs⟩ | ⟨hn, hs⟩ <;> rw [hs]
  · exact storesInv_emit src hp hl (storesInv_fptClear p h)
  · exact storesInv_fptSet hp (he hn) h

theorem length_payloadOf_firstEntry_le (seq : BitVec 3) {data : List Byte} (hd : data.length ≤ 8) :
    (payloadOf (firstEntry seq data)).length ≤ 223 := by
  have hc := length_firstChunk data
  refine length_payloadOf_le (Table.wf_singleton _ _) ?_ ?_ <;> simp only [firstEntry, List.mem_singleton]
  · rintro x rfl
    exact Nat.zero_lt_succ 31
  · rintro x rfl
    show (firstChunk data).length ≤ 6
    omega

theorem storesInv_runFpFirst {s : State} (seq : BitVec 3) (now : Nat) (h : StoresInv s) :
    StoresInv (runFpFirst seq now s) := by
  obtain ⟨-, hpgn, hdata, -⟩ := id h
  rcases runFpFirst_cases seq now s with ⟨-, hr⟩ | ⟨-, -, hr⟩ | ⟨-, -, hr⟩ <;> rw [hr]
  · exact storesInv_dropFrame _ _ h
  · exact storesInv_dropFrame _ _ h
  · exact storesInv_storeEntry _ hpgn (entryInv_firstEntry hdata) (length_payloadOf_firstEntry_le seq hdata)
      (storesInv_thrSet now hpgn h)

theorem storesInv_runFpNext {s : State} (seq : BitVec 3) (fc : BitVec 5) (h : StoresInv s) :
    StoresInv (runFpNext seq fc s) := by
  obtain ⟨-, hpgn, hdata, -⟩ := id h
  rcases runFpNext_cases seq fc s with ⟨-, hr⟩ | ⟨e, hg, ⟨-, hr⟩ | ⟨-, -, hr⟩ | ⟨-, habsent, hr⟩⟩ <;> rw [hr]
  · exact storesInv_dropFrame _ _ h
  · exact storesInv_dropFrame _ _ h
  · exact storesInv_dropFrame _ _ h
  · have hchunk : (nextChunk s.cf.data).length ≤ 7 := by
      rw [length_nextChunk]
      omega
    obtain ⟨hw, hk, hsum, hzero, hl⟩ := entryInv_addChunk (entryInv_of_fptGet h hg) habsent hchunk
    exact storesInv_storeEntry _ hpgn (fun hn => ⟨hw, hk, hsum, hzero, hl, hn⟩) (length_payloadOf_le hw hk hl) h

theorem storesInv_runSfEmit {s : State} (h : StoresInv s) : StoresInv (runSfEmit s) := by
  obtain ⟨-, hpgn, hdata, -⟩ := id h
  exact storesInv_emit _ hpgn (hdata.trans (by decide)) h

theorem storesInv_routeFrame {s : State} (now : Nat) (h : StoresInv s) : StoresInv (routeFrame now s) := by
  rcases routeFrame_cases now s with ⟨-, hr⟩ | ⟨-, -, hr⟩ | ⟨-, -, hr⟩ <;> rw [hr]
  · exact storesInv_dropFrame _ _ h
  · exact storesInv_runSfEmit h
  · rcases reassemble_cases now s with hr | ⟨seq, hr⟩ | ⟨seq, fc, hr⟩ <;> rw [hr]
    · exact storesInv_dropFrame _ _ h
    · exact storesInv_runFpFirst seq now h
    · exact storesInv_runFpNext seq fc h

theorem storesInv_runDec {s : State} (body : List Byte) (h : StoresInv s) : StoresInv (runDec body s).2 := by
  rcases runDec_cases body s with ⟨code, -, hr⟩ | ⟨cf, hok, hr⟩ <;> rw [hr]
  · exact storesInv_dropFrame _ _ h
  · obtain ⟨hp, hd⟩ := decodeBody_ok hok
    exact storesInv_setCf hp hd h

theorem storesInv_process {s : State} (body : List Byte) (now : Nat) (h : StoresInv s) :
    StoresInv (process body now s) := by
  rcases process_cases body now s with ⟨code, -, hr⟩ | ⟨cf, hok, hr⟩ <;> rw [hr]
  · exact storesInv_dropFrame _ _ h
  · obtain ⟨hp, hd⟩ := decodeBody_ok hok
    exact storesInv_setCf (cf := .atRest) atRest_pgn_lt (Nat.zero_le _)
      (storesInv_routeFrame now (storesInv_setCf hp hd h))

/-! ## The invariant holds at construction, and every operation and every step keep it (R33) -/

theorem inv_construct (cfg : Cfg) : Inv (State.construct cfg) := by
  have hskip : SkipShape (State.construct cfg) := by
    unfold SkipShape
    split
    · rfl
    · exact fun _ => rfl
  have htables : TablesInv (State.construct cfg) := ⟨Table.wf_nil, Table.wf_nil, nofun, nofun⟩
  have hwidths : WidthsInv (State.construct cfg) := ⟨atRest_pgn_lt, Nat.zero_le _, nofun⟩
  exact ⟨rxbufShape_of_nil rfl, hskip, htables, hwidths⟩

/-- Settles O48. -/
theorem constructionMeetsTheInvariant : Obligations.ConstructionMeetsTheInvariant :=
  ⟨inv_construct, rfl, rfl, rfl, rfl, rfl, rfl⟩

theorem inv_of_stageFrame {s t : State} (h : Inv s) (f : StageFrame s t) (hstores : StoresInv t) : Inv t := by
  obtain ⟨hrx, hskip, -⟩ := h
  obtain ⟨hrx', hskip'⟩ := shapes_congr f.cfg f.rxbuf f.skip ⟨hrx, hskip⟩
  exact ⟨hrx', hskip', hstores⟩

theorem inv_process {s : State} (body : List Byte) (now : Nat) (h : Inv s) : Inv (process body now s) := by
  obtain ⟨hrx, hskip, hstores⟩ := h
  obtain ⟨hrx', hskip'⟩ := shapes_congr (process_cfg body now s) (process_rxbuf body now s) (process_skip body now s)
    ⟨hrx, hskip⟩
  exact ⟨hrx', hskip', storesInv_process body now hstores⟩

/-- RX cuts at most one frame from such a state (`runRx_eq`), so one pass through framer and PROCESS is all there is. -/
theorem inv_runRx {s : State} (b : Byte) (now : Nat) (h : Inv s) : Inv (runRx b now s) := by
  obtain ⟨hrx, hskip, hstores⟩ := h
  have hframer : Inv (runFramer (s.pushBytes [b])).2 := by
    obtain ⟨hrx', hskip'⟩ := shapes_runFramer_pushByte b hrx hskip
    have f := framerFrame_runFramer (s.pushBytes [b])
    exact ⟨hrx', hskip', storesInv_congr f.fpt f.thr f.cf f.out hstores⟩
  rw [runRx_eq b now hrx]
  rcases hr : runFramer (s.pushBytes [b]) with ⟨r, t⟩
  rw [hr] at hframer
  cases r with
  | needMoreData => exact hframer
  | dropped code => exact hframer
  | frame body => exact inv_process body now hframer

theorem inv_runReset {s : State} (h : Inv s) : Inv (runReset s) := by
  obtain ⟨-, -, -, -, -, hout⟩ := h
  obtain ⟨hrx, hskip, htables, hpgn, hdata, -⟩ := inv_construct s.cfg
  exact ⟨hrx, hskip, htables, hpgn, hdata, hout⟩

theorem inv_runThrAccept {s : State} {p : Pgn} (now : Nat) (hp : p.toNat < pgnCount) (h : Inv s) :
    Inv (runThrAccept p now s).2 := by
  rcases runThrAccept_cases p now s with ⟨-, hr⟩ | ⟨-, hr⟩ <;> rw [hr]
  · obtain ⟨hrx, hskip, hstores⟩ := h
    exact ⟨hrx, hskip, storesInv_thrSet now hp hstores⟩
  · exact h

theorem inv_runDec {s : State} (body : List Byte) (h : Inv s) : Inv (runDec body s).2 := by
  obtain ⟨hrx, hskip, hstores⟩ := h
  have hstores' := storesInv_runDec body hstores
  rcases runDec_cases body s with ⟨code, -, hr⟩ | ⟨cf, -, hr⟩ <;> rw [hr] at hstores' ⊢ <;>
    exact ⟨hrx, hskip, hstores'⟩

/-- Every operation keeps the invariant. THR.ACCEPT writes its operand into a key, so it needs the operand to be an
18-bit PGN. FRM.SKIP and FP.EMIT run by themselves never get to act: no separator is ready and no entry is complete. -/
theorem effect_keeps_inv {i : Instr} {s t : State} (hi : ∀ p now, i = .thrAccept p now → p.toNat < pgnCount)
    (h : Inv s) (hx : Effect i s t) : Inv t := by
  obtain ⟨hrx, hskip, hstores⟩ := id h
  cases hx with
  | rx b now => exact inv_runRx b now h
  | reset => exact inv_runReset h
  | framer =>
    rw [runFramer_idle hrx hskip]
    exact h
  | skip _ hready => rw [separatorReady_of_skipShape hskip] at hready; cases hready
  | dec body => exact inv_runDec body h
  | flt p => exact h
  | thrAccept p now => exact inv_runThrAccept now (hi p now rfl) h
  | sfEmit => exact inv_of_stageFrame h (stageFrame_runSfEmit s) (storesInv_runSfEmit hstores)
  | fpFirst seq now =>
    exact inv_of_stageFrame h (stageFrame_runFpFirst seq now s) (storesInv_runFpFirst seq now hstores)
  | fpNext seq fc => exact inv_of_stageFrame h (stageFrame_runFpNext seq fc s) (storesInv_runFpNext seq fc hstores)
  | fpEmit p src _ e hg hc =>
    obtain ⟨-, -, -, -, -, hopen⟩ := entryInv_of_fptGet hstores hg
    exact absurd ((completeEntry_iff e).1 hc) (Nat.not_le.2 hopen)

/-- The decoder hands the throttle an 18-bit PGN (R113). -/
theorem decode_thrAccept_lt {l : Level} {bytes : List Byte} {p : Pgn} {now : Nat}
    (h : decode l bytes = .ok (.thrAccept p now)) : p.toNat < pgnCount := by
  cases l with
  | throttle q now' =>
    cases bytes with
    | nil => cases h
    | cons ctl rest =>
      simp only [decode] at h
      split at h
      · cases h
        exact pgnOfField_lt q
      · cases h
  | rx now' => cases bytes <;> cases h
  | control now' =>
    cases bytes with
    | nil => cases h
    | cons ctl rest =>
      simp only [decode, decodeControl] at h
      split at h <;> cases h
  | separator =>
    simp only [decode] at h
    split at h <;> cases h
  | body =>
    simp only [decode] at h
    split at h
    · cases h
    · split at h <;> cases h
  | reset | delim | fixed | pgn | single | complete => cases h

/-- The invariant reads neither DIAG nor the input. -/
theorem inv_passOver {s : State} (e : DecodeError) (h : Inv s) : Inv (passOver e s) := by
  rcases passOver_cases e s with he | ⟨code, info, he⟩ <;> rw [he] <;> exact h

/-- Settles O49: a step is an operation the decoder answered, or passes over its input. -/
theorem stepKeepsTheInvariant : Obligations.StepKeepsTheInvariant := by
  intro s t h hstep
  rcases step_cases hstep with ⟨-, rfl⟩ | ⟨r, rest, -, ⟨i, hdec, hx⟩ | ⟨e, -, rfl⟩⟩
  · exact h
  · have htaken : Inv { s with input := remaining r ++ rest } := h
    refine effect_keeps_inv (fun p now hi => ?_) htaken (effect_of_exec hx)
    rw [hi] at hdec
    exact decode_thrAccept_lt hdec
  · exact inv_passOver e h

end Sys2Proof.StateLaws
end

section
/-! PROOFS about the storage spaces (spec/20_memory.md): an entry of FPT leaves only with a record of its PGN, a frame
reaches no other PGN's entry, one RX appends at most one record, and the capture scheme of R44 is enough. -/

namespace Sys2Proof.MemoryLaws

open Sys2Proof.Machine Sys2Proof.Safety Sys2Proof.StateLaws

/-! ## Whose entries a frame reaches (R48, R160) -/

theorem storeEntry_fpt_get_ne {p : Pgn} {k : Nat} (hk : k ≠ p.toNat) (src : Byte) (e : FastPacketState) (s : State) :
    (storeEntry p src e s).fpt.get k = s.fpt.get k := by
  rcases storeEntry_cases p src e s with ⟨-, h⟩ | ⟨-, h⟩ <;> rw [h]
  · exact Table.get_erase_ne _ hk
  · exact Table.get_set_ne _ _ hk

theorem runFpFirst_get_ne {s : State} {k : Nat} (hk : k ≠ s.cf.pgn.toNat) (seq : BitVec 3) (now : Nat) :
    (runFpFirst seq now s).fpt.get k = s.fpt.get k ∧ (runFpFirst seq now s).thr.get k = s.thr.get k := by
  rcases runFpFirst_cases seq now s with ⟨-, h⟩ | ⟨-, -, h⟩ | ⟨-, -, h⟩ <;> rw [h]
  · exact ⟨rfl, rfl⟩
  · exact ⟨rfl, rfl⟩
  · refine ⟨storeEntry_fpt_get_ne hk _ _ _, ?_⟩
    rw [storeEntry_thr]
    exact Table.get_set_ne _ _ hk

/-- The throttle is not consulted for a later frame (R135), so THR stays whole. -/
theorem runFpNext_get_ne {s : State} {k : Nat} (hk : k ≠ s.cf.pgn.toNat) (seq : BitVec 3) (fc : BitVec 5) :
    (runFpNext seq fc s).fpt.get k = s.fpt.get k ∧ (runFpNext seq fc s).thr = s.thr := by
  rcases runFpNext_cases seq fc s with ⟨-, h⟩ | ⟨e, -, ⟨-, h⟩ | ⟨-, -, h⟩ | ⟨-, -, h⟩⟩ <;> rw [h]
  · exact ⟨rfl, rfl⟩
  · exact ⟨rfl, rfl⟩
  · exact ⟨rfl, rfl⟩
  · exact ⟨storeEntry_fpt_get_ne hk _ _ _, storeEntry_thr _ _ _ s⟩

theorem runFpEmit_get_ne {p : Pgn} {k : Nat} (hk : k ≠ p.toNat) (src : Byte) (s : State) :
    (runFpEmit p src s).fpt.get k = s.fpt.get k ∧ (runFpEmit p src s).thr = s.thr := by
  unfold runFpEmit
  split
  · exact ⟨rfl, rfl⟩
  · exact ⟨Table.get_erase_ne _ hk, rfl⟩

/-- Settles O28: different PGNs are different keys. -/
theorem otherPgnsAreUntouched : Obligations.OtherPgnsAreUntouched := by
  intro s t q
  refine ⟨fun seq now hq hx => ?first, fun seq fc hq hx => ?next, fun p src hq hx => ?emit⟩
  case first =>
    cases hx
    exact runFpFirst_get_ne (BitVec.toNat_ne_iff_ne.2 hq) seq now
  case next =>
    cases hx
    exact runFpNext_get_ne (BitVec.toNat_ne_iff_ne.2 hq) seq fc
  case emit =>
    simp only [exec, execFpEmit] at hx
    split at hx <;> cases hx
    exact runFpEmit_get_ne (BitVec.toNat_ne_iff_ne.2 hq) src s

/-! ## How an entry leaves FPT (R53, R245) -/

/-- OUT has grown at its end, and every PGN that had an entry still has one or has had a record appended. -/
def EntriesAccounted (s t : State) : Prop :=
  ∃ o, t.out = s.out ++ o ∧ ∀ p : Pgn, s.fptGet p ≠ none → t.fptGet p ≠ none ∨ ∃ r ∈ o, r.pgn = p

theorem EntriesAccounted.trans {s t u : State} (h₁ : EntriesAccounted s t) (h₂ : EntriesAccounted t u) :
    EntriesAccounted s u := by
  obtain ⟨o₁, ho₁, hk₁⟩ := h₁
  obtain ⟨o₂, ho₂, hk₂⟩ := h₂
  refine ⟨o₁ ++ o₂, by rw [ho₂, ho₁, List.append_assoc], fun p hp => ?_⟩
  rcases hk₁ p hp with hp | ⟨r, hr, hrp⟩
  · rcases hk₂ p hp with hp | ⟨r, hr, hrp⟩
    · exact .inl hp
    · exact .inr ⟨r, List.mem_append_right _ hr, hrp⟩
  · exact .inr ⟨r, List.mem_append_left _ hr, hrp⟩

/-- What leaves FPT alone loses no entry, whatever it appends. -/
theorem entriesAccounted_of_fpt_eq {s t : State} (hfpt : t.fpt = s.fpt) (hout : s.out <+: t.out) :
    EntriesAccounted s t := by
  obtain ⟨o, ho⟩ := hout
  refine ⟨o, ho.symm, fun p hp => .inl ?_⟩
  unfold State.fptGet
  rwa [hfpt]

theorem entriesAccounted_fptSet (p : Pgn) (e : FastPacketState) (s : State) : EntriesAccounted s (s.fptSet p e) := by
  refine ⟨[], (List.append_nil _).symm, fun q hq => .inl ?_⟩
  unfold State.fptGet at hq ⊢
  by_cases h : q.toNat = p.toNat
  · rw [h, State.fptSet_fpt, Table.get_set_self]
    exact Option.some_ne_none e
  · rwa [State.fptSet_fpt, Table.get_set_ne _ _ h]

/-- The one place where an entry is removed is FP.EMIT, which appends its record (R156). -/
theorem entriesAccounted_emit (p : Pgn) (src : Byte) (payload : List Byte) (s : State) :
    EntriesAccounted s ((s.fptClear p).emit p src payload) := by
  refine ⟨[⟨p, src, payload⟩], rfl, fun q hq => ?_⟩
  by_cases h : q = p
  · exact .inr ⟨_, List.mem_singleton_self _, h.symm⟩
  · refine .inl ?_
    unfold State.fptGet at hq ⊢
    rwa [State.emit_fpt, State.fptClear_fpt, Table.get_erase_ne _ (BitVec.toNat_ne_iff_ne.2 h)]

theorem entriesAccounted_storeEntry (p : Pgn) (src : Byte) (e : FastPacketState) (s : State) :
    EntriesAccounted s (storeEntry p src e s) := by
  rcases storeEntry_cases p src e s with ⟨-, h⟩ | ⟨-, h⟩ <;> rw [h]
  · exact entriesAccounted_emit p src _ s
  · exact entriesAccounted_fptSet p e s

theorem entriesAccounted_dropFrame (s : State) (code : DropCode) (info : Option Pgn) :
    EntriesAccounted s (s.dropFrame code info) :=
  entriesAccounted_of_fpt_eq rfl List.prefix_rfl

/-- A superseded entry (R150) gives way to the one that is stored. -/
theorem entriesAccounted_runFpFirst (seq : BitVec 3) (now : Nat) (s : State) :
    EntriesAccounted s (runFpFirst seq now s) := by
  rcases runFpFirst_cases seq now s with ⟨-, h⟩ | ⟨-, -, h⟩ | ⟨-, -, h⟩ <;> rw [h]
  · exact entriesAccounted_dropFrame s _ _
  · exact entriesAccounted_dropFrame s _ _
  · have admitted : EntriesAccounted s (s.thrSet s.cf.pgn now) := entriesAccounted_of_fpt_eq rfl List.prefix_rfl
    exact admitted.trans (entriesAccounted_storeEntry _ _ _ _)

theorem entriesAccounted_runFpNext (seq : BitVec 3) (fc : BitVec 5) (s : State) :
    EntriesAccounted s (runFpNext seq fc s) := by
  rcases runFpNext_cases seq fc s with ⟨-, h⟩ | ⟨e, -, ⟨-, h⟩ | ⟨-, -, h⟩ | ⟨-, -, h⟩⟩ <;> rw [h]
  · exact entriesAccounted_dropFrame s _ _
  · exact entriesAccounted_dropFrame s _ _
  · exact entriesAccounted_dropFrame s _ _
  · exact entriesAccounted_storeEntry _ _ _ s

theorem entriesAccounted_runSfEmit (s : State) : EntriesAccounted s (runSfEmit s) :=
  entriesAccounted_of_fpt_eq rfl (List.prefix_append _ _)

theorem entriesAccounted_routeFrame (now : Nat) (s : State) : EntriesAccounted s (routeFrame now s) := by
  rcases routeFrame_cases now s with ⟨-, h⟩ | ⟨-, -, h⟩ | ⟨-, -, h⟩ <;> rw [h]
  · exact entriesAccounted_dropFrame s _ _
  · exact entriesAccounted_runSfEmit s
  · rcases reassemble_cases now s with h | ⟨seq, h⟩ | ⟨seq, fc, h⟩ <;> rw [h]
    · exact entriesAccounted_dropFrame s _ _
    · exact entriesAccounted_runFpFirst seq now s
    · exact entriesAccounted_runFpNext seq fc s

/-- The decoded-frame registers, written before routing and released after it, are neither table nor stream. -/
theorem entriesAccounted_process (body : List Byte) (now : Nat) (s : State) :
    EntriesAccounted s (process body now s) := by
  rcases process_cases body now s with ⟨code, -, h⟩ | ⟨cf, -, h⟩ <;> rw [h]
  · exact entriesAccounted_dropFrame s _ _
  · exact entriesAccounted_routeFrame now (s.setCf cf)

theorem entriesAccounted_runFramer (s : State) : EntriesAccounted s (runFramer s).2 := by
  have f := framerFrame_runFramer s
  exact entriesAccounted_of_fpt_eq f.fpt (by rw [f.out])

/-- By induction over the loop of RX: one RX may remove several entries when RXBUF held several frames. -/
theorem entriesAccounted_runRx (b : Byte) (now : Nat) (s : State) : EntriesAccounted s (runRx b now s) := by
  have pushed : EntriesAccounted s (s.pushBytes [b]) := entriesAccounted_of_fpt_eq rfl List.prefix_rfl
  exact rxLoop_keeps (EntriesAccounted s) now (fun u hu => hu.trans (entriesAccounted_runFramer u))
    (fun body u hu => hu.trans (entriesAccounted_process body now u)) _ pushed

theorem entriesAccounted_runThrAccept (p : Pgn) (now : Nat) (s : State) :
    EntriesAccounted s (runThrAccept p now s).2 := by
  rcases runThrAccept_cases p now s with ⟨-, h⟩ | ⟨-, h⟩ <;> rw [h] <;>
    exact entriesAccounted_of_fpt_eq rfl List.prefix_rfl

theorem entriesAccounted_runDec (body : List Byte) (s : State) : EntriesAccounted s (runDec body s).2 := by
  rcases runDec_cases body s with ⟨code, -, h⟩ | ⟨cf, -, h⟩ <;> rw [h] <;>
    exact entriesAccounted_of_fpt_eq rfl List.prefix_rfl

/-- Every operation but RESET. A result written to `ret` does not show in the comparison. -/
theorem effect_accounts_entries {i : Instr} {s t : State} (hi : i ≠ .reset) (h : Effect i s t) :
    EntriesAccounted s t := by
  cases h with
  | rx b now => exact entriesAccounted_runRx b now s
  | reset => exact absurd rfl hi
  | framer => exact entriesAccounted_runFramer s
  | skip => exact entriesAccounted_of_fpt_eq rfl List.prefix_rfl
  | dec body => exact entriesAccounted_runDec body s
  | flt p => exact entriesAccounted_of_fpt_eq rfl List.prefix_rfl
  | thrAccept p now => exact entriesAccounted_runThrAccept p now s
  | sfEmit => exact entriesAccounted_runSfEmit s
  | fpFirst seq now => exact entriesAccounted_runFpFirst seq now s
  | fpNext seq fc => exact entriesAccounted_runFpNext seq fc s
  | fpEmit p src => exact entriesAccounted_emit p src _ s

/-- Settles O53. -/
theorem entriesLeaveOnlyByCompletion : Obligations.EntriesLeaveOnlyByCompletion := by
  intro i s t p e hi hx hs ht
  obtain ⟨o, ho, haccounted⟩ := effect_accounts_entries hi (effect_of_exec hx)
  have hp : s.fptGet p ≠ none := by
    rw [State.fptGet, hs]
    exact Option.some_ne_none e
  rcases haccounted p hp with hstays | ⟨r, hr, hrp⟩
  · exact absurd ht hstays
  · exact ⟨o, r, ho, hr, hrp⟩

/-! ## One record per RX (R49, R178, R199) -/

/-- OUT and DIAG have grown at their ends, by at most one record together. -/
def AppendsAtMostOne (s t : State) : Prop :=
  ∃ o d, t.out = s.out ++ o ∧ t.diag = s.diag ++ d ∧ o.length + d.length ≤ 1

theorem appendsAtMostOne_of_eq {s t : State} (hout : t.out = s.out) (hdiag : t.diag = s.diag) :
    AppendsAtMostOne s t :=
  ⟨[], [], by rw [hout, List.append_nil], by rw [hdiag, List.append_nil], Nat.zero_le 1⟩

theorem appendsAtMostOne_process (body : List Byte) (now : Nat) (s : State) :
    AppendsAtMostOne s (process body now s) := by
  rcases process_cases body now s with ⟨code, -, h⟩ | ⟨cf, -, h⟩ <;> rw [h]
  · exact ⟨[], [⟨code, none⟩], (List.append_nil _).symm, rfl, le_rfl⟩
  · obtain ⟨o, d, ho, hd, hle, -⟩ := (stageFrame_routeFrame now (s.setCf cf)).streams
    exact ⟨o, d, ho, hd, hle⟩

/-- From what stands between two events a byte completes at most one frame (`runRx_eq`); the framer's drop, or else
the handling of that frame, appends the only record. -/
theorem appendsAtMostOne_runRx {s : State} (b : Byte) (now : Nat) (h : RxbufShape s) :
    AppendsAtMostOne s (runRx b now s) := by
  have hout : (runFramer (s.pushBytes [b])).2.out = s.out := (framerFrame_runFramer (s.pushBytes [b])).out
  have hdiag := runFramer_diag (s.pushBytes [b])
  rw [runRx_eq b now h]
  rcases hr : runFramer (s.pushBytes [b]) with ⟨r, t⟩
  rw [hr] at hout hdiag
  cases r with
  | needMoreData => exact appendsAtMostOne_of_eq hout hdiag
  | dropped code => exact ⟨[], [⟨code, none⟩], by rw [hout, List.append_nil], hdiag, le_rfl⟩
  | frame body =>
    obtain ⟨o, d, ho, hd, hle⟩ := appendsAtMostOne_process body now t
    exact ⟨o, d, ho.trans (congrArg (· ++ o) hout), hd.trans (congrArg (· ++ d) hdiag), hle⟩

/-- Settles O35. -/
theorem rxAppendsAtMostOneRecord : Obligations.RxAppendsAtMostOneRecord := by
  intro s t b now hinv hx
  obtain ⟨hrx, -⟩ := hinv
  cases hx
  exact appendsAtMostOne_runRx b now hrx

/-! ## The capture scheme (R44) -/

/-- PROCESS reads the body through DEC alone (R110, R178). -/
theorem process_congr {body body' : List Byte} (h : decodeBody body = decodeBody body') (now : Nat) (s : State) :
    process body now s = process body' now s := by
  unfold process runDec
  rw [h]

/-- DEC reads at most 13 bytes: the type byte, the frame id and up to 8 data bytes (R60, R111). -/
theorem decodeBody_append {head : List Byte} (hl : head.length = 13) (rest : List Byte) :
    decodeBody (head ++ rest) = decodeBody head := by
  have hget : ∀ k < 13, (head ++ rest).getD k 0 = head.getD k 0 := fun k hk =>
    List.getD_append _ _ _ _ (hl ▸ hk)
  have hid : bodyFrameId (head ++ rest) = bodyFrameId head := by
    simp only [bodyFrameId, hget, Nat.reduceLT]
  unfold decodeBody
  rw [hget 0 (by decide), hid]
  by_cases hn : 8 < dataLength (head.getD 0 0)
  · rw [if_pos hn, if_pos hn]
  · have hdata : bodyData (head ++ rest) (dataLength (head.getD 0 0)) =
        bodyData head (dataLength (head.getD 0 0)) := by
      unfold bodyData
      rw [List.drop_append_of_le_length (by omega),
        List.take_append_of_le_length (by rw [List.length_drop]; omega)]
    rw [if_neg hn, if_neg hn, if_neg (by rw [List.length_append]; omega), if_neg (by omega), hdata]

/-- A candidate of 15 bytes or more passes every length test but the one on `n` (R92). -/
theorem delimCheck_of_long {mid : List Byte} (hl : 13 ≤ mid.length) :
    delimCheck (0xAA :: mid ++ [0x55]) = if 8 < dataLength (mid.getD 0 0) then .dropped .xDlen else .frame mid := by
  have hlen : (0xAA :: mid ++ [0x55] : List Byte).length = mid.length + 2 := by simp
  have htype : (0xAA :: mid ++ [0x55] : List Byte).getD 1 0 = mid.getD 0 0 :=
    List.getD_append mid [0x55] 0 0 (by omega)
  have hbody : ((0xAA :: mid ++ [0x55] : List Byte).drop 1).dropLast = mid := by simp
  unfold delimCheck
  rw [hlen, htype, hbody, if_neg (by omega), if_neg (by omega)]
  split
  · rfl
  · exact if_neg (by omega)

/-- The end marker behind a candidate without one, said once: the length check drops it, or its body is handled. -/
theorem runRx_endMarker {s : State} {mid : List Byte} (now : Nat) (hm : s.cfg.mode = .delim) (hmid : 0x55 ∉ mid) :
    (∃ code, delimCheck (0xAA :: mid ++ [0x55]) = .dropped code ∧
      runRx 0x55 now (s.setRxbuf (0xAA :: mid)) = (s.setRxbuf []).dropFrame code none) ∨
    (delimCheck (0xAA :: mid ++ [0x55]) = .frame mid ∧
      runRx 0x55 now (s.setRxbuf (0xAA :: mid)) = process mid now (s.setRxbuf [])) := by
  have hshape : RxbufShape (s.setRxbuf (0xAA :: mid)) := by
    unfold RxbufShape
    rw [State.setRxbuf_cfg, if_pos hm]
    exact .inr ⟨rfl, List.not_mem_cons_of_ne_of_not_mem (by decide) hmid⟩
  have hcut : cutDelim (0xAA :: mid ++ [0x55]) = (some (0xAA :: mid ++ [0x55]), []) :=
    cutDelim_found (pre := []) (post := []) List.not_mem_nil hmid
  rw [runRx_eq 0x55 now hshape, (framer_of_delim (s := (s.setRxbuf (0xAA :: mid)).pushBytes [0x55]) hm).2, runDelim,
    State.pushBytes_rxbuf, State.setRxbuf_rxbuf, hcut]
  cases hc : delimCheck (0xAA :: mid ++ [0x55]) with
  | needMoreData => exact absurd hc (delimCheck_ne_needMoreData _)
  | dropped code => exact .inl ⟨code, rfl, by simp only [hc]; rfl⟩
  | frame body =>
    obtain ⟨rfl, -⟩ := delimCheck_frame hc
    exact .inr ⟨rfl, by simp only [hc]; rfl⟩

/-- Of a candidate of 15 bytes or more the 13 bytes behind the start marker decide: where the length check drops it
with X_DLEN, DEC would drop those bytes with the same code. -/
theorem runRx_endMarker_of_long {s : State} {head rest : List Byte} (now : Nat) (hm : s.cfg.mode = .delim)
    (hl : head.length = 13) (hmid : 0x55 ∉ head ++ rest) :
    runRx 0x55 now (s.setRxbuf (0xAA :: (head ++ rest))) = process head now (s.setRxbuf []) := by
  have hcheck := delimCheck_of_long (mid := head ++ rest) (by rw [List.length_append]; omega)
  rw [List.getD_append _ _ _ _ (by omega)] at hcheck
  rcases runRx_endMarker now hm hmid with ⟨code, hc, h⟩ | ⟨-, h⟩ <;> rw [h]
  · rw [hcheck] at hc
    split at hc
    · rename_i hn
      cases hc
      unfold process runDec decodeBody
      rw [if_pos hn]
    · cases hc
  · exact process_congr (decodeBody_append hl rest) now _

/-- Candidates that the capture scheme cannot tell apart are equal, or agree in 13 bytes behind the start marker. -/
theorem captured_eq {mid mid' : List Byte}
    (htake : (0xAA :: mid ++ [0x55] : List Byte).take 14 = (0xAA :: mid' ++ [0x55]).take 14)
    (hlen : min (mid.length + 2) 15 = min (mid'.length + 2) 15) :
    mid = mid' ∨ ∃ head rest rest', head.length = 13 ∧ mid = head ++ rest ∧ mid' = head ++ rest' := by
  have htake' : (mid ++ [0x55]).take 13 = (mid' ++ [0x55]).take 13 := List.tail_eq_of_cons_eq htake
  by_cases hl : mid.length < 13
  · have hl' : mid.length = mid'.length := by omega
    rw [List.take_of_length_le (by simp; omega), List.take_of_length_le (by simp; omega)] at htake'
    exact .inl (List.append_inj_left htake' hl')
  · rw [List.take_append_of_le_length (by omega), List.take_append_of_le_length (by omega)] at htake'
    refine .inr ⟨mid.take 13, mid.drop 13, mid'.drop 13, ?_, (List.take_append_drop 13 mid).symm, ?_⟩
    · rw [List.length_take]; omega
    · rw [htake', List.take_append_drop]

/-- Settles O44. -/
theorem fifteenByteCaptureSuffices : Obligations.FifteenByteCaptureSuffices := by
  intro s mid mid' now hm hmid hmid' htake hlen
  rcases captured_eq htake hlen with rfl | ⟨head, rest, rest', hl, rfl, rfl⟩
  · rfl
  · exact congrArg Host.Outcome.next
      ((runRx_endMarker_of_long now hm hl hmid).trans (runRx_endMarker_of_long now hm hl hmid').symm)

end Sys2Proof.MemoryLaws
end

section
/-! PROOFS about the encodings (spec/30_encoding.md). Which operation a piece of input selects, said once (`Selects`),
and from it the round trip and the width of every operand; what a whole frame becomes in FRM.DELIM and in DEC; and what
happens where no operation is selected, or one runs outside its rule's condition. -/

namespace Sys2Proof.EncodingLaws

open Sys2Proof.Machine Sys2Proof.Safety Sys2Proof.StateLaws

/-! ## Which operation is selected (R69) -/

/-- The bits select the operation at the level: R69 as a relation, the graph of `decode` without its errors
(`decode_eq_ok_iff`). -/
inductive Selects : Level → List Byte → Instr → Prop
  | rx (now : Nat) (b : Byte) (rest : List Byte) : Selects (.rx now) (b :: rest) (.rx b now)
  | reset (bytes : List Byte) : Selects .reset bytes .reset
  | delim (bytes : List Byte) : Selects .delim bytes .frmDelim
  | fixed (bytes : List Byte) : Selects .fixed bytes .frmFixed
  | separator (b : Byte) (rest : List Byte) : Selects .separator (b :: rest) .frmSkip
  | body {bytes : List Byte} (h : 5 ≤ bytes.length) : Selects .body bytes (.dec bytes)
  | pgn (bytes : List Byte) : Selects .pgn bytes (.flt (pgnOfField (pgnOfBytes bytes)))
  | single (bytes : List Byte) : Selects .single bytes .sfEmit
  | first (now : Nat) {ctl : Byte} (rest : List Byte) (h : controlFc ctl = 0) :
      Selects (.control now) (ctl :: rest) (.fpFirst (controlSeq ctl) now)
  | later (now : Nat) {ctl : Byte} (rest : List Byte) (h : controlFc ctl ≠ 0) :
      Selects (.control now) (ctl :: rest) (.fpNext (controlSeq ctl) (controlFc ctl))
  | throttle (p : BitVec 18) (now : Nat) {ctl : Byte} (rest : List Byte) (h : controlFc ctl = 0) :
      Selects (.throttle p now) (ctl :: rest) (.thrAccept (pgnOfField p) now)
  | complete (p : BitVec 18) (src : Byte) (bytes : List Byte) :
      Selects (.complete p src) bytes (.fpEmit (pgnOfField p) src)

theorem decode_body_of_le {bytes : List Byte} (h : 5 ≤ bytes.length) : decode .body bytes = .ok (.dec bytes) := by
  have hne : bytes ≠ [] := List.ne_nil_of_length_pos (by omega)
  simp only [decode, if_neg hne, if_neg (Nat.not_lt.2 h)]

theorem decode_of_selects {l : Level} {bytes : List Byte} {i : Instr} (h : Selects l bytes i) :
    decode l bytes = .ok i := by
  cases h with
  | body h => exact decode_body_of_le h
  | first _ _ h => simp only [decode, decodeControl, if_pos h]
  | later _ _ h => simp only [decode, decodeControl, if_neg h]
  | throttle _ _ _ h => simp only [decode, if_pos h]
  | rx | reset | delim | fixed | separator | pgn | single | complete => rfl

theorem selects_of_decode {l : Level} {bytes : List Byte} {i : Instr} (h : decode l bytes = .ok i) :
    Selects l bytes i := by
  cases l with
  | rx now =>
    cases bytes with
    | nil => cases h
    | cons b rest => cases h; exact .rx now b rest
  | separator =>
    cases bytes with
    | nil => cases h
    | cons b rest => cases h; exact .separator b rest
  | body =>
    simp only [decode] at h
    split at h
    · cases h
    · split at h
      · cases h
      · cases h; exact .body (by omega)
  | control now =>
    cases bytes with
    | nil => cases h
    | cons ctl rest =>
      simp only [decode, decodeControl] at h
      split at h <;> cases h
      · exact .first now rest ‹_›
      · exact .later now rest ‹_›
  | throttle p now =>
    cases bytes with
    | nil => cases h
    | cons ctl rest =>
      simp only [decode] at h
      split at h <;> cases h
      exact .throttle p now rest ‹_›
  | reset => cases h; exact .reset bytes
  | delim => cases h; exact .delim bytes
  | fixed => cases h; exact .fixed bytes
  | pgn => cases h; exact .pgn bytes
  | single => cases h; exact .single bytes
  | complete p src => cases h; exact .complete p src bytes

theorem decode_eq_ok_iff {l : Level} {bytes : List Byte} {i : Instr} :
    decode l bytes = .ok i ↔ Selects l bytes i :=
  ⟨selects_of_decode, decode_of_selects⟩

/-! ## The checks on the operands (R111, R113, R152) -/

theorem wf_dec_iff (body : List Byte) : (Instr.dec body).wf = true ↔ 5 ≤ body.length := by
  simp [Instr.wf, Instr.illFormed]

theorem wf_flt_iff (p : Pgn) : (Instr.flt p).wf = true ↔ p.toNat < pgnCount := by
  simp [Instr.wf, Instr.illFormed]

theorem wf_thrAccept_iff (p : Pgn) (now : Nat) : (Instr.thrAccept p now).wf = true ↔ p.toNat < pgnCount := by
  simp [Instr.wf, Instr.illFormed]

theorem wf_fpNext_iff (seq : BitVec 3) (fc : BitVec 5) : (Instr.fpNext seq fc).wf = true ↔ fc ≠ 0 := by
  simp [Instr.wf, Instr.illFormed]

theorem wf_fpEmit_iff (p : Pgn) (src : Byte) : (Instr.fpEmit p src).wf = true ↔ p.toNat < pgnCount := by
  simp [Instr.wf, Instr.illFormed]

theorem wf_of_selects {l : Level} {bytes : List Byte} {i : Instr} (h : Selects l bytes i) : i.wf = true := by
  cases h with
  | body h => exact (wf_dec_iff _).2 h
  | pgn => exact (wf_flt_iff _).2 (pgnOfField_lt _)
  | later _ _ h => exact (wf_fpNext_iff _ _).2 h
  | throttle p now => exact (wf_thrAccept_iff _ now).2 (pgnOfField_lt p)
  | complete p src => exact (wf_fpEmit_iff _ src).2 (pgnOfField_lt p)
  | rx | reset | delim | fixed | separator | single | first => rfl

/-- The check is what makes the encoding faithful: a short body selects nothing, the upper bits of a PGN have no place
in its 18-bit field, and frame counter 0 is a first frame's. -/
theorem selects_encode {i : Instr} (h : i.wf = true) : Selects (levelOf i) (encode i) i := by
  cases i with
  | rx b now => exact .rx now b []
  | reset => exact .reset []
  | frmDelim => exact .delim _
  | frmFixed => exact .fixed _
  | frmSkip => exact .separator 0 []
  | dec body => exact .body ((wf_dec_iff body).1 h)
  | flt p =>
    have hsel := Selects.pgn (encode (.flt p))
    have hfield : pgnOfField (pgnOfBytes (encode (.flt p))) = p :=
      (congrArg pgnOfField (pgnOfBytes_extract p)).trans (pgnOfField_extract ((wf_flt_iff p).1 h))
    rwa [hfield] at hsel
  | thrAccept p now =>
    have hsel := Selects.throttle (p.extractLsb' 0 18) now [] (controlFc_controlByte 0 0)
    rwa [pgnOfField_extract ((wf_thrAccept_iff p now).1 h)] at hsel
  | sfEmit => exact .single []
  | fpFirst seq now =>
    have hsel := Selects.first now [] (controlFc_controlByte seq 0)
    rwa [controlSeq_controlByte] at hsel
  | fpNext seq fc =>
    have hfc : controlFc (controlByte seq fc) ≠ 0 := by
      rw [controlFc_controlByte]
      exact (wf_fpNext_iff seq fc).1 h
    have hsel := Selects.later 0 [] hfc
    rwa [controlSeq_controlByte, controlFc_controlByte] at hsel
  | fpEmit p src =>
    have hsel := Selects.complete (p.extractLsb' 0 18) src []
    rwa [pgnOfField_extract ((wf_fpEmit_iff p src).1 h)] at hsel

/-- Settles O1. -/
theorem decodeEncodeRoundTrip : Obligations.DecodeEncodeRoundTrip :=
  fun _ h => decode_eq_ok_iff.2 (selects_encode h)

/-- Settles O2. -/
theorem decodedOperationsAreWellFormed : Obligations.DecodedOperationsAreWellFormed :=
  fun _ _ _ h => wf_of_selects (decode_eq_ok_iff.1 h)

/-- Settles O3. -/
theorem stepRunsDecodedOperation : Obligations.StepRunsDecodedOperation :=
  fun _ _ _ _ hinput hdec => step_ok hinput hdec

/-! ## A whole DELIM frame on the wire (R61, R92, R93) -/

/-- A body that is there in full passes the length check; `delimCheck_frame` is the converse. -/
theorem delimCheck_of_whole {mid : List Byte} (h5 : 5 ≤ mid.length) (h8 : dataLength (mid.getD 0 0) ≤ 8)
    (hn : 5 + dataLength (mid.getD 0 0) ≤ mid.length) : delimCheck (0xAA :: mid ++ [0x55]) = .frame mid := by
  have hlen : (0xAA :: mid ++ [0x55] : List Byte).length = mid.length + 2 := by simp
  have htype : (0xAA :: mid ++ [0x55] : List Byte).getD 1 0 = mid.getD 0 0 :=
    List.getD_append mid [0x55] 0 0 (by omega)
  have hbody : ((0xAA :: mid ++ [0x55] : List Byte).drop 1).dropLast = mid := by simp
  unfold delimCheck
  rw [hlen, htype, hbody, if_neg (by omega), if_neg (by omega), if_neg (by omega), if_neg (by omega)]

theorem runDelim_of_frame {s : State} {w rest body : List Byte} (hcut : cutDelim s.rxbuf = (some w, rest))
    (hcheck : delimCheck w = .frame body) : runDelim s = (.frame body, s.setRxbuf rest) := by
  simp only [runDelim, hcut, hcheck]

theorem exec_frmDelim_of_delim {s : State} (hm : s.cfg.mode = .delim) :
    exec .frmDelim s = .next (withRet (runDelim s).2 (retOfFrm (runDelim s).1)) := by
  obtain ⟨hop, hrun⟩ := framer_of_delim hm
  have e := exec_of_effect (Effect.framer s)
  rwa [hop, hrun] at e

theorem delimCheck_wire (f : Wire) (trailing : List Byte) (h : f.data.length ≤ 8) :
    delimCheck (0xAA :: (f.body ++ trailing) ++ [0x55]) = .frame (f.body ++ trailing) := by
  have hn : dataLength ((f.body ++ trailing).getD 0 0) = f.data.length := f.dataLength_typeByte h
  have hlen := f.length_body
  refine delimCheck_of_whole ?_ (hn ▸ h) ?_ <;> rw [List.length_append] <;> omega

/-- Settles O7. -/
theorem delimWireFrameIsCut : Obligations.DelimWireFrameIsCut := by
  intro s f garbage trailing post hm hlen hgarbage hframe hbuf
  have hsplit : s.rxbuf = garbage ++ 0xAA :: ((f.body ++ trailing) ++ 0x55 :: post) := by
    simp [hbuf, Wire.delim, startMarker, endMarker]
  have hrun := runDelim_of_frame ((congrArg cutDelim hsplit).trans (cutDelim_found hgarbage hframe))
    (delimCheck_wire f trailing hlen)
  rw [exec_frmDelim_of_delim hm, hrun]
  rfl

/-! ## DEC reads the fields and nothing else (R60, R71, R111) -/

/-- A body of at least 5 bytes, its data area holding the announced data and any bytes after them. -/
theorem decodeBody_of_announced {ty : Byte} (i0 i1 i2 i3 : Byte) {data : List Byte} (after : List Byte)
    (h : dataLength ty = data.length) :
    decodeBody (ty :: i0 :: i1 :: i2 :: i3 :: data ++ after) =
      if 8 < data.length then .dropped .xDlen
      else .ok ⟨pgnField (frameIdInt i0 i1 i2 i3), sourceField (frameIdInt i0 i1 i2 i3), data.reverse⟩ := by
  have htype : (ty :: i0 :: i1 :: i2 :: i3 :: data ++ after).getD 0 0 = ty := rfl
  have hid : bodyFrameId (ty :: i0 :: i1 :: i2 :: i3 :: data ++ after) = frameIdInt i0 i1 i2 i3 := rfl
  have hdata : bodyData (ty :: i0 :: i1 :: i2 :: i3 :: data ++ after) data.length = data.reverse :=
    congrArg List.reverse (List.take_left (l₁ := data) (l₂ := after))
  have hlong : ¬ (ty :: i0 :: i1 :: i2 :: i3 :: data ++ after).length < 5 + data.length := by simp; omega
  unfold decodeBody
  rw [htype, hid, h, hdata, if_neg hlong]

/-- The body of a physical frame decodes to its fields, whatever the bits that no rule reads are. -/
theorem decodeBody_wireBody (f : Wire) (after : List Byte) (h : f.data.length ≤ 8) :
    decodeBody (f.body ++ after) = .ok ⟨f.pgn.zeroExtend 32, f.source, f.data.reverse⟩ := by
  unfold Wire.body
  rw [decodeBody_of_announced _ _ _ _ after (f.dataLength_typeByte h), if_neg (Nat.not_lt.2 h), frameIdInt_extract,
    Wire.pgnField_frameId, Wire.sourceField_frameId]

theorem exec_dec_of_ne_nil {body : List Byte} (s : State) (h : body ≠ []) :
    exec (.dec body) s = .next (withRet (runDec body s).2 (retOfDec (runDec body s).1)) :=
  exec_of_effect (.dec body s h)

/-- Settles O14. -/
theorem wireBodyDecodesToItsFields : Obligations.WireBodyDecodesToItsFields := by
  intro s f after h
  have hne : f.body ++ after ≠ [] := List.cons_ne_nil _ _
  rw [exec_dec_of_ne_nil s hne, runDec, decodeBody_wireBody f after h]
  rfl

/-- The state reaches DEC's outcome through `decodeBody` alone (R110). -/
theorem exec_dec_congr {body body' : List Byte} (s : State) (h : body ≠ []) (h' : body' ≠ [])
    (hd : decodeBody body = decodeBody body') : exec (.dec body) s = exec (.dec body') s := by
  rw [exec_dec_of_ne_nil s h, exec_dec_of_ne_nil s h', runDec, hd, ← runDec]

/-- Of the last frame id byte only the two low bits are in a field: bits 25:24 of the frame id (R64). -/
theorem frameId_fields_congr (i0 i1 i2 : Byte) {i3 i3' : Byte} (h : i3.toNat % 4 = i3'.toNat % 4) :
    pgnField (frameIdInt i0 i1 i2 i3) = pgnField (frameIdInt i0 i1 i2 i3') ∧
      sourceField (frameIdInt i0 i1 i2 i3) = sourceField (frameIdInt i0 i1 i2 i3') := by
  constructor <;> apply BitVec.eq_of_toNat_eq
  · rw [pgnField_toNat, pgnField_toNat, frameIdInt_toNat, frameIdInt_toNat]
    omega
  · rw [sourceField_toNat, sourceField_toNat, frameIdInt_toNat, frameIdInt_toNat]
    omega

/-- Settles O15. -/
theorem decIgnoresUnreadBits : Obligations.DecIgnoresUnreadBits := by
  intro s ty ty' i0 i1 i2 i3 i3' data after after' hty hi3 hdata
  have hn : dataLength ty = data.length := by rw [dataLength_eq, hdata]
  have hn' : dataLength ty' = data.length := by rw [dataLength_eq, hdata, hty]
  obtain ⟨hpgn, hsource⟩ := frameId_fields_congr i0 i1 i2 hi3
  refine exec_dec_congr s (List.cons_ne_nil _ _) (List.cons_ne_nil _ _) ?_
  rw [decodeBody_of_announced i0 i1 i2 i3 after hn, decodeBody_of_announced i0 i1 i2 i3' after' hn', hpgn, hsource]

/-! ## Operations outside the condition of their rule (R60, R97, R111, R156) -/

theorem exec_frmDelim_of_ne {s : State} (h : s.cfg.mode ≠ .delim) : exec .frmDelim s = .fault .wrongMode :=
  if_neg h

theorem exec_frmFixed_of_ne {s : State} (h : s.cfg.mode ≠ .fixed) : exec .frmFixed s = .fault .wrongMode :=
  if_neg h

theorem exec_frmSkip_of_not_ready {s : State} (h : ¬ s.separatorReady = true) :
    exec .frmSkip s = .fault .noSeparatorPending :=
  if_neg h

theorem exec_fpEmit_of_not_complete {s : State} {p : Pgn} (src : Byte) (h : ¬ entryComplete p s = true) :
    exec (.fpEmit p src) s = .fault .notComplete :=
  if_neg h

/-- Settles O12. -/
theorem callsOutsideTheirConditionStop : Obligations.CallsOutsideTheirConditionStop := by
  intro s
  refine ⟨fun hm => exec_frmDelim_of_ne (by simp [hm]), fun hm => exec_frmFixed_of_ne (by simp [hm]),
    fun h => exec_frmSkip_of_not_ready ?_, rfl, fun p src h => exec_fpEmit_of_not_complete src ?_⟩
  · rw [separatorReady_iff]
    rintro ⟨hskip, hlen⟩
    rcases h with h | h
    · simp [h] at hskip
    · simp [h] at hlen
  · rw [entryComplete_iff]
    rintro ⟨e, hget, hc⟩
    exact Nat.not_le.2 (h e hget) ((completeEntry_iff e).1 hc)

/-! ## Input that selects no operation (R69, R92, R135, R146, R177) -/

theorem decode_throttle_later (p : BitVec 18) (now : Nat) {ctl : Byte} (rest : List Byte)
    (h : ctl.toNat % 32 ≠ 0) : decode (.throttle p now) (ctl :: rest) = .error .notAFirstFrame :=
  if_neg (mt (controlFc_eq_zero_iff ctl).1 h)

theorem decode_body_of_lt {bytes : List Byte} (h : bytes.length < 5) :
    decode .body bytes = .error (if bytes = [] then .noBody else .bodyTooShort) := by
  by_cases hb : bytes = []
  · simp only [decode, if_pos hb]
  · simp only [decode, if_neg hb, if_pos h]

/-- The drop of a body that the length check never lets through: the candidate `AA 55` is a runt (R92). -/
theorem passOver_short_body (bytes : List Byte) (s : State) :
    passOver (if bytes = [] then .noBody else .bodyTooShort) s =
      s.dropFrame (if bytes = [] then .xRunt else .xShort) none := by
  split <;> rfl

theorem step_ne_refused (s : State) (r : Refusal) : step s ≠ .refused r := by
  cases hs : s.input with
  | nil => rw [step_nil hs]; exact nofun
  | cons q rest =>
    cases hd : decode q.level (fetchBytes q s) with
    | ok i => rw [step_ok hs hd]; exact exec_ne_refused i _ r
    | error e => rw [step_error hs hd]; exact nofun

/-- A request without a chunk is taken whole. -/
theorem step_passOver {s : State} {l : Level} {bytes : List Byte} {rest : List Request} {e : DecodeError}
    (h : s.input = ⟨l, bytes⟩ :: rest) (hr : remaining ⟨l, bytes⟩ = [])
    (hd : decode l (fetchBytes ⟨l, bytes⟩ s) = .error e) :
    step s = .next (passOver e { s with input := rest }) := by
  rw [step_error h hd, hr, List.nil_append]

/-- Settles O59. -/
theorem inputThatSelectsNoOperation : Obligations.InputThatSelectsNoOperation := by
  intro s rest
  refine ⟨?noByte, ?noSeparator, ?notAFirstFrame, ?noControlByte, ?shortBody, step_ne_refused s⟩
  case noByte => exact fun now h => step_passOver h rfl rfl
  case noSeparator =>
    intro bytes h hbuf
    exact step_passOver h rfl (if_pos hbuf)
  case notAFirstFrame =>
    intro p now bytes data ctl h hdata hctl
    have hfetch : fetchBytes ⟨.throttle p now, bytes⟩ s = ctl :: data.reverse := by simp [fetchBytes, hdata]
    exact step_passOver h rfl (hfetch ▸ decode_throttle_later p now _ hctl)
  case noControlByte =>
    rintro l bytes h (⟨now, rfl⟩ | ⟨p, now, rfl⟩) hdata
    · have hfetch : fetchBytes ⟨.control now, bytes⟩ s = [] := by simp [fetchBytes, hdata]
      exact step_passOver (e := .noControlByte) h rfl (by rw [hfetch]; rfl)
    · have hfetch : fetchBytes ⟨.throttle p now, bytes⟩ s = [] := by simp [fetchBytes, hdata]
      exact step_passOver (e := .noControlByte) h rfl (by rw [hfetch]; rfl)
  case shortBody =>
    intro bytes h hlen
    rw [step_passOver h rfl (decode_body_of_lt hlen), passOver_short_body]
    rfl

end Sys2Proof.EncodingLaws
end

section
/-! PROOFS about the framer (spec/40_framer.md): what FRM.DELIM, FRM.FIXED and FRM.SKIP answer on every content of
RXBUF and SKIP, and what becomes of a separator that RX brings. -/

namespace Sys2Proof.FramerLaws

open Sys2Proof.Machine Sys2Proof.StateLaws Sys2Proof.EncodingLaws

/-! ## FRM.DELIM (R91, R92, R93) -/

theorem runDelim_of_no_candidate {s : State} {rest : List Byte} (hcut : cutDelim s.rxbuf = (none, rest)) :
    runDelim s = (.needMoreData, s.setRxbuf rest) := by
  simp only [runDelim, hcut]

theorem runDelim_of_dropped {s : State} {w rest : List Byte} {code : DropCode}
    (hcut : cutDelim s.rxbuf = (some w, rest)) (hcheck : delimCheck w = .dropped code) :
    runDelim s = (.dropped code, (s.setRxbuf rest).dropFrame code none) := by
  simp only [runDelim, hcut, hcheck]

/-- The length check in arithmetic, on a candidate with its two markers. -/
theorem delimCheck_candidate (mid : List Byte) :
    delimCheck (0xAA :: mid ++ [0x55]) =
      if (0xAA :: mid ++ [0x55] : List Byte).length < 3 then .dropped .xRunt
      else if (0xAA :: mid ++ [0x55] : List Byte).length < 7 then .dropped .xShort
      else if 8 < ((0xAA :: mid ++ [0x55] : List Byte).getD 1 0).toNat % 16 then .dropped .xDlen
      else if (0xAA :: mid ++ [0x55] : List Byte).length < 7 + ((0xAA :: mid ++ [0x55] : List Byte).getD 1 0).toNat % 16
        then .dropped .xShort
      else .frame mid := by
  have hbody : ((0xAA :: mid ++ [0x55] : List Byte).drop 1).dropLast = mid := by simp
  rw [delimCheck, dataLength_eq, hbody]

/-- Settles O6: one clause per content that R91 tells apart, the third along the branches of the length check. -/
theorem frmDelimCutsTheFirstCandidate : Obligations.FrmDelimCutsTheFirstCandidate := by
  intro s hm
  rw [exec_frmDelim_of_delim hm]
  refine ⟨fun hstart => ?noStart, fun pre mid hbuf hpre hmid => ?noEnd,
    fun pre mid post hbuf hpre hmid => ?candidate⟩
  case noStart =>
    rw [runDelim_of_no_candidate (cutDelim_no_start hstart)]
    rfl
  case noEnd =>
    rw [runDelim_of_no_candidate ((congrArg cutDelim hbuf).trans (cutDelim_no_end hpre hmid))]
    rfl
  case candidate =>
    have hcut := (congrArg cutDelim hbuf).trans (cutDelim_found hpre hmid)
    have hcheck := delimCheck_candidate mid
    intro w n dropWith
    have hdrop : ∀ code, delimCheck w = .dropped code →
        .next (withRet (runDelim s).2 (retOfFrm (runDelim s).1)) = dropWith code := by
      intro code hcode
      rw [runDelim_of_dropped hcut hcode]
      rfl
    split_ifs at hcheck ⊢ with hrunt hshort hdlen hdata
    · exact hdrop .xRunt hcheck
    · exact hdrop .xShort hcheck
    · exact hdrop .xDlen hcheck
    · exact hdrop .xShort hcheck
    · rw [runDelim_of_frame hcut hcheck]
      rfl

/-! ## FRM.SKIP (R97) -/

theorem separatorReady_of_cons {s : State} {x : Byte} {rest : List Byte} (hskip : s.skip = true)
    (hbuf : s.rxbuf = x :: rest) : s.separatorReady = true :=
  (separatorReady_iff s).2 ⟨hskip, by simp [hbuf]⟩

theorem runSkip_of_cons {s : State} {x : Byte} {rest : List Byte} (hbuf : s.rxbuf = x :: rest) :
    runSkip s = (s.setRxbuf rest).setSkip false := by
  rw [runSkip, hbuf, List.drop_one, List.tail_cons]

/-- Settles O11. -/
theorem frmSkipDiscardsOneByte : Obligations.FrmSkipDiscardsOneByte := by
  intro s x rest hskip hbuf
  rw [exec_of_effect (.skip s (separatorReady_of_cons hskip hbuf)), runSkip_of_cons hbuf]
  rfl

/-! ## FRM.FIXED (R96) -/

theorem exec_frmFixed_of_fixed {s : State} (hm : s.cfg.mode = .fixed) :
    exec .frmFixed s = .next (withRet (runFixed s).2 (retOfFrm (runFixed s).1)) := by
  obtain ⟨hop, hrun⟩ := framer_of_fixed hm
  have e := exec_of_effect (Effect.framer s)
  rwa [hop, hrun] at e

theorem skipIfReady_of_cons {s : State} {x : Byte} {rest : List Byte} (hskip : s.skip = true)
    (hbuf : s.rxbuf = x :: rest) : skipIfReady s = (s.setRxbuf rest).setSkip false := by
  rw [skipIfReady, if_pos (separatorReady_of_cons hskip hbuf), runSkip_of_cons hbuf]

theorem skipIfReady_of_nil {s : State} (hbuf : s.rxbuf = []) : skipIfReady s = s := by
  simp [skipIfReady, State.separatorReady, hbuf]

/-- With a separator pending and nothing buffered FRM.FIXED waits. -/
theorem runFixed_of_nil {s : State} (hskip : s.skip = true) (hbuf : s.rxbuf = []) :
    runFixed s = (.needMoreData, s) := by
  rw [runFixed, skipIfReady_of_nil hbuf, if_pos hskip]

/-- A separator that is there is discarded before anything else is looked at. -/
theorem runFixed_of_separator {s : State} {x : Byte} {rest : List Byte} (hskip : s.skip = true)
    (hbuf : s.rxbuf = x :: rest) : runFixed s = runFixed ((s.setRxbuf rest).setSkip false) := by
  have hdone : skipIfReady ((s.setRxbuf rest).setSkip false) = (s.setRxbuf rest).setSkip false :=
    skipIfReady_of_not_skip rfl
  rw [runFixed, runFixed, skipIfReady_of_cons hskip hbuf, hdone]

theorem runFixed_of_not_skip {s : State} (hskip : s.skip = false) : runFixed s = cutFixed s := by
  rw [runFixed, skipIfReady_of_not_skip hskip, if_neg (by simp [hskip])]

theorem runFixed_of_short {s : State} (hskip : s.skip = false) (hlen : s.rxbuf.length < 13) :
    runFixed s = (.needMoreData, s) := by
  rw [runFixed_of_not_skip hskip, cutFixed, fixedLength, if_pos hlen]

/-- Thirteen bytes are cut, SKIP is set, and a separator that is already there goes at once. -/
theorem runFixed_of_frame {s : State} {f rest : List Byte} (hskip : s.skip = false) (hlen : f.length = 13)
    (hbuf : s.rxbuf = f ++ rest) : runFixed s = (.frame f, skipIfReady ((s.setRxbuf rest).setSkip true)) := by
  have hlong : ¬ (f ++ rest).length < 13 := by rw [List.length_append]; omega
  rw [runFixed_of_not_skip hskip, cutFixed, fixedLength, hbuf, if_neg hlong, List.take_left' hlen, List.drop_left' hlen]

/-- Settles O10. -/
theorem frmFixedCutsThirteenBytes : Obligations.FrmFixedCutsThirteenBytes := by
  intro s hm
  rw [exec_frmFixed_of_fixed hm]
  refine ⟨fun hskip hbuf => ?waiting, fun x rest hskip hbuf => ?separator, fun hskip hlen => ?short,
    fun f hskip hlen hbuf => ?thirteen, fun f x rest hskip hlen hbuf => ?more⟩
  case waiting =>
    rw [runFixed_of_nil hskip hbuf]
    rfl
  case separator =>
    rw [runFixed_of_separator hskip hbuf]
    exact (exec_frmFixed_of_fixed (s := (s.setRxbuf rest).setSkip false) hm).symm
  case short =>
    rw [runFixed_of_short hskip hlen]
    rfl
  case thirteen =>
    rw [runFixed_of_frame hskip hlen (hbuf.trans f.append_nil.symm), skipIfReady_of_nil rfl]
    rfl
  case more =>
    rw [runFixed_of_frame hskip hlen hbuf, skipIfReady_of_cons (s := (s.setRxbuf (x :: rest)).setSkip true) rfl rfl]
    rfl

/-! ## The separator through RX (R97, R176) -/

theorem pushBytes_setRxbuf_nil {s : State} (bytes : List Byte) (hbuf : s.rxbuf = []) :
    (s.pushBytes bytes).setRxbuf [] = s := by
  rw [← hbuf]
  rfl

/-- Settles O37: the framer discards the byte and then has nothing to cut. -/
theorem separatorByteIsDiscarded : Obligations.SeparatorByteIsDiscarded := by
  intro s b now hm hskip hbuf
  have hpushed : (s.pushBytes [b]).rxbuf = [b] := by rw [State.pushBytes_rxbuf, hbuf, List.nil_append]
  have hframer : runFramer (s.pushBytes [b]) = (.needMoreData, s.setSkip false) := by
    rw [(framer_of_fixed (s := s.pushBytes [b]) hm).2, runFixed_of_separator (s := s.pushBytes [b]) hskip hpushed,
      pushBytes_setRxbuf_nil [b] hbuf]
    exact runFixed_of_short rfl (by simp [hbuf])
  have hrun : runRx b now s = s.setSkip false := by
    rw [runRx_eq b now (rxbufShape_of_nil hbuf), hframer]
  exact congrArg Host.Outcome.next hrun

end Sys2Proof.FramerLaws
end

section
/-! PROOFS about the decoder (spec/41_decoder.md): what DEC answers on every body of at least 5 bytes, what becomes of a
FIXED frame with a reserved data length, and that the source address DEC reads is copied to OUT and used for nothing
else. -/

namespace Sys2Proof.DecoderLaws

open Sys2Proof.Machine Sys2Proof.StateLaws Sys2Proof.EncodingLaws Sys2Proof.FramerLaws

/-! ## DEC on every body (R111, R112) -/

theorem decodeBody_of_reserved {body : List Byte} (h : 8 < dataLength (body.getD 0 0)) :
    decodeBody body = .dropped .xDlen :=
  if_pos h

theorem decodeBody_of_short {body : List Byte} (h8 : dataLength (body.getD 0 0) ≤ 8)
    (hlen : body.length < 5 + dataLength (body.getD 0 0)) : decodeBody body = .dropped .xShort := by
  rw [decodeBody, if_neg (Nat.not_lt.2 h8), if_pos hlen]

/-- With the announced bytes there, the data area is those bytes, and what stands behind them is not read. -/
theorem decodeBody_of_fields {ty : Byte} (i0 i1 i2 i3 : Byte) {rest : List Byte} (h8 : dataLength ty ≤ 8)
    (hlen : dataLength ty ≤ rest.length) :
    decodeBody (ty :: i0 :: i1 :: i2 :: i3 :: rest) =
      .ok ⟨pgnField (frameIdInt i0 i1 i2 i3), sourceField (frameIdInt i0 i1 i2 i3),
        (rest.take (dataLength ty)).reverse⟩ := by
  have hdata : (rest.take (dataLength ty)).length = dataLength ty := List.length_take_of_le hlen
  have h := decodeBody_of_announced i0 i1 i2 i3 (rest.drop (dataLength ty)) hdata.symm
  simp only [List.cons_append, List.take_append_drop, hdata, if_neg (Nat.not_lt.2 h8)] at h
  exact h

theorem exec_dec_of_dropped {body : List Byte} {code : DropCode} (s : State) (hne : body ≠ [])
    (h : decodeBody body = .dropped code) :
    exec (.dec body) s = .next (withRet (s.dropFrame code none) (.dropped code)) := by
  rw [exec_dec_of_ne_nil s hne, runDec, h]
  rfl

theorem exec_dec_of_ok {body : List Byte} {cf : CanFrame} (s : State) (hne : body ≠ [])
    (h : decodeBody body = .ok cf) : exec (.dec body) s = .next (withRet (s.setCf cf) .decoded) := by
  rw [exec_dec_of_ne_nil s hne, runDec, h]
  rfl

/-- Settles O13: one clause per line of R111 that answers. -/
theorem decReadsTheFields : Obligations.DecReadsTheFields := by
  intro s ty i0 i1 i2 i3 rest body n id
  have hn : dataLength ty = n := dataLength_eq ty
  have hne : body ≠ [] := List.cons_ne_nil _ _
  refine ⟨fun hreserved => ?reserved, fun h8 hshort => ?short, fun h8 hlen => ?fields⟩
  case reserved => exact exec_dec_of_dropped s hne (decodeBody_of_reserved (hn ▸ hreserved))
  case short =>
    have hlen : body.length < 5 + dataLength ty := by
      show rest.length + 5 < 5 + dataLength ty
      omega
    exact exec_dec_of_dropped s hne (decodeBody_of_short (hn ▸ h8) hlen)
  case fields =>
    have hdec := decodeBody_of_fields i0 i1 i2 i3 (hn ▸ h8) (hn ▸ hlen)
    rw [hn] at hdec
    refine ⟨_, _, exec_dec_of_ok s hne hdec, ?_, ?_⟩
    · rw [pgnField_toNat, frameIdInt_toNat]
    · rw [sourceField_toNat, frameIdInt_toNat]

/-! ## A reserved data length in FIXED mode (R112, R210) -/

theorem process_of_dropped {body : List Byte} {code : DropCode} (now : Nat) (s : State)
    (h : decodeBody body = .dropped code) : process body now s = s.dropFrame code none := by
  rw [process, runDec, h]

/-- The 13th byte, said once: the frame is cut, a separator is pending, and the body is handled. -/
theorem runRx_thirteenth {s : State} (b : Byte) (now : Nat) (hm : s.cfg.mode = .fixed) (hskip : s.skip = false)
    (hlen : s.rxbuf.length = 12) :
    runRx b now s = process (s.rxbuf ++ [b]) now ((s.setRxbuf []).setSkip true) := by
  have hshape : Safety.RxbufShape s := by
    unfold Safety.RxbufShape
    rw [hm]
    exact hlen.le
  have hcut : runFramer (s.pushBytes [b]) = (.frame (s.rxbuf ++ [b]), (s.setRxbuf []).setSkip true) := by
    rw [(framer_of_fixed (s := s.pushBytes [b]) hm).2,
      runFixed_of_frame (s := s.pushBytes [b]) (f := s.rxbuf ++ [b]) hskip (by rw [List.length_append, hlen]; rfl)
        (List.append_nil _).symm,
      skipIfReady_of_nil rfl]
    rfl
  rw [runRx_eq b now hshape, hcut]

/-- Settles O40. -/
theorem fixedReservedLengthIsDropped : Obligations.FixedReservedLengthIsDropped := by
  intro s b now hm hskip hlen hreserved
  rw [← dataLength_eq] at hreserved
  have hrun := (runRx_thirteenth b now hm hskip hlen).trans
    (process_of_dropped now _ (decodeBody_of_reserved hreserved))
  exact congrArg Host.Outcome.next hrun

/-! ## The source address is no key (R114, R147) -/

/-- A record of OUT without its source address. -/
def eraseRecordSource (r : OutRecord) : OutRecord := { r with source := 0 }

/-- The state without the source addresses it holds: the decoded frame's, and those on OUT. -/
def eraseSources (s : State) : State :=
  { s with cf := { s.cf with source := 0 }, out := s.out.map eraseRecordSource }

theorem eraseSources_emit (p : Pgn) (src : Byte) (payload : List Byte) (s : State) :
    eraseSources (s.emit p src payload) = (eraseSources s).emit p 0 payload := by
  simp only [eraseSources, State.emit, List.map_append, List.map_cons, List.map_nil, eraseRecordSource]

/-- The source handed to the store reaches nothing but the record. -/
theorem eraseSources_storeEntry (p : Pgn) (src : Byte) (e : FastPacketState) (s : State) :
    eraseSources (storeEntry p src e s) = storeEntry p 0 e (eraseSources s) := by
  rcases storeEntry_cases p src e s with ⟨hc, h⟩ | ⟨hc, h⟩ <;>
    rcases storeEntry_cases p 0 e (eraseSources s) with ⟨hc', h'⟩ | ⟨hc', h'⟩
  · rw [h, h', eraseSources_emit]
    rfl
  · exact absurd hc (Nat.not_le.2 hc')
  · exact absurd hc' (Nat.not_le.2 hc)
  · rw [h, h']
    rfl

theorem eraseSources_runThrAccept (p : Pgn) (now : Nat) (s : State) :
    runThrAccept p now (eraseSources s) = ((runThrAccept p now s).1, eraseSources (runThrAccept p now s).2) := by
  have hverdict : thrVerdict p now (eraseSources s) = thrVerdict p now s := rfl
  unfold runThrAccept
  rw [hverdict]
  split <;> rfl

/-- Erasing the sources before FP.FIRST or after it is the same: the throttle and the new entry see the PGN and the
data only. -/
theorem eraseSources_runFpFirst (seq : BitVec 3) (now : Nat) (s : State) :
    eraseSources (runFpFirst seq now s) = runFpFirst seq now (eraseSources s) := by
  have hpgn : (eraseSources s).cf.pgn = s.cf.pgn := rfl
  have hdata : (eraseSources s).cf.data = s.cf.data := rfl
  unfold runFpFirst
  rw [hpgn, hdata, eraseSources_runThrAccept]
  split
  · rfl
  · rcases runThrAccept s.cf.pgn now s with ⟨_ | _, t⟩
    · rfl
    · exact eraseSources_storeEntry _ _ _ t

/-- The same of FP.NEXT: the entry is found under the PGN alone (R147). -/
theorem eraseSources_runFpNext (seq : BitVec 3) (fc : BitVec 5) (s : State) :
    eraseSources (runFpNext seq fc s) = runFpNext seq fc (eraseSources s) := by
  have hentry : (eraseSources s).fptGet (eraseSources s).cf.pgn = s.fptGet s.cf.pgn := rfl
  unfold runFpNext
  rw [hentry]
  cases s.fptGet s.cf.pgn with
  | none => rfl
  | some e =>
    simp only
    split
    · rfl
    · split
      · rfl
      · exact eraseSources_storeEntry _ _ _ s

/-- What the erasure of sources leaves of OUT is its PGNs and payloads. -/
theorem forwarded_of_eraseSources_eq {s t : State} (h : eraseSources s = eraseSources t) :
    s.out.map (fun r => (r.pgn, r.payload)) = t.out.map (fun r => (r.pgn, r.payload)) := by
  have hout : s.out.map eraseRecordSource = t.out.map eraseRecordSource := congrArg State.out h
  have hforwarded := congrArg (List.map fun r : OutRecord => (r.pgn, r.payload)) hout
  rwa [List.map_map, List.map_map] at hforwarded

/-- An operation that commutes with the erasure of sources takes states that differ in them alone to states that differ
in them alone. -/
theorem eraseSources_congr {run : State → State} (hrun : ∀ s, eraseSources (run s) = run (eraseSources s))
    {s s' : State} (h : eraseSources s' = eraseSources s) : eraseSources (run s') = eraseSources (run s) := by
  rw [hrun, hrun, h]

/-- Settles O29: erasing the sources commutes with both operations, and makes the two frames the same. -/
theorem sourceAddressIsNoKey : Obligations.SourceAddressIsNoKey := by
  intro s t t' i src hi hx hx'
  have hsame : eraseSources { s with cf := { s.cf with source := src } } = eraseSources s := rfl
  have herased : eraseSources t' = eraseSources t := by
    rcases hi with ⟨seq, now, rfl⟩ | ⟨seq, fc, rfl⟩ <;> cases hx <;> cases hx'
    · exact eraseSources_congr (eraseSources_runFpFirst seq now) hsame
    · exact eraseSources_congr (eraseSources_runFpNext seq fc) hsame
  exact ⟨(congrArg State.fpt herased :), (congrArg State.thr herased :), (congrArg State.diag herased :),
    forwarded_of_eraseSources_eq herased⟩

end Sys2Proof.DecoderLaws
end

section
/-! PROOFS about the filter (spec/42_filter.md): its verdict, that one RX forwards allowed PGNs only, and what becomes
of a frame on the wire whose PGN is not allowed. -/

namespace Sys2Proof.FilterLaws

open Sys2Proof.Machine Sys2Proof.StateLaws Sys2Proof.MemoryLaws Sys2Proof.EncodingLaws

/-! ## The verdict (R126) -/

theorem pgnIn_iff (p : Pgn) (set : List Int) : pgnIn p set = true ↔ (p.toNat : Int) ∈ set :=
  decide_eq_true_iff

/-- Along the two tests of R126: is INCLUDE empty, is EXCLUDE empty. -/
theorem allowed_iff (cfg : Cfg) (p : Pgn) :
    allowed cfg p = true ↔
      (cfg.incl ≠ [] ∧ (p.toNat : Int) ∈ cfg.incl) ∨
      (cfg.incl = [] ∧ cfg.excl ≠ [] ∧ (p.toNat : Int) ∉ cfg.excl) ∨
      (cfg.incl = [] ∧ cfg.excl = []) := by
  unfold allowed
  by_cases hincl : cfg.incl = []
  · by_cases hexcl : cfg.excl = []
    · simp [hincl, hexcl]
    · simp [hincl, hexcl, ← pgnIn_iff]
  · simp [hincl, pgnIn_iff]

/-- Settles O16. -/
theorem fltVerdict : Obligations.FltVerdict :=
  fun s p => ⟨allowed s.cfg p, exec_of_effect (.flt p s), allowed_iff s.cfg p⟩

/-! ## What one RX forwards (R125, R178) -/

/-- The configuration stays, and what OUT has grown by are records of PGNs that it allows. -/
structure ForwardsAllowed (s t : State) : Prop where
  cfg : t.cfg = s.cfg
  out : ∃ o, t.out = s.out ++ o ∧ ∀ r ∈ o, allowed s.cfg r.pgn = true

theorem forwardsAllowed_of_out_eq {s t : State} (hcfg : t.cfg = s.cfg) (hout : t.out = s.out) :
    ForwardsAllowed s t :=
  ⟨hcfg, [], by rw [hout, List.append_nil], fun _ hr => absurd hr List.not_mem_nil⟩

theorem ForwardsAllowed.trans {s t u : State} (h₁ : ForwardsAllowed s t) (h₂ : ForwardsAllowed t u) :
    ForwardsAllowed s u := by
  obtain ⟨hcfg₁, o₁, ho₁, hallowed₁⟩ := h₁
  obtain ⟨hcfg₂, o₂, ho₂, hallowed₂⟩ := h₂
  rw [hcfg₁] at hallowed₂
  refine ⟨hcfg₂.trans hcfg₁, o₁ ++ o₂, by rw [ho₂, ho₁, List.append_assoc], fun r hr => ?_⟩
  exact (List.mem_append.1 hr).elim (hallowed₁ r) (hallowed₂ r)

theorem routeFrame_of_filtered {s : State} (now : Nat) (h : allowed s.cfg s.cf.pgn = false) :
    routeFrame now s = s.dropFrame .nFiltered (some s.cf.pgn) := by
  rw [routeFrame, h]
  rfl

/-- A frame is filtered before it is routed, and every stage behind the filter appends records of that frame's PGN
only (`StageFrame`). -/
theorem forwardsAllowed_routeFrame (now : Nat) (s : State) : ForwardsAllowed s (routeFrame now s) := by
  cases hverdict : allowed s.cfg s.cf.pgn with
  | false =>
    rw [routeFrame_of_filtered now hverdict]
    exact forwardsAllowed_of_out_eq rfl rfl
  | true =>
    have f := stageFrame_routeFrame now s
    obtain ⟨o, -, ho, -, -, hpgn⟩ := f.streams
    refine ⟨f.cfg, o, ho, fun r hr => ?_⟩
    rw [hpgn r hr]
    exact hverdict

/-- The decoded-frame registers, written before routing and released after it, are not compared. -/
theorem forwardsAllowed_process (body : List Byte) (now : Nat) (s : State) :
    ForwardsAllowed s (process body now s) := by
  rcases process_cases body now s with ⟨code, -, h⟩ | ⟨cf, -, h⟩ <;> rw [h]
  · exact forwardsAllowed_of_out_eq rfl rfl
  · have f := forwardsAllowed_routeFrame now (s.setCf cf)
    exact ⟨f.cfg, f.out⟩

theorem forwardsAllowed_runFramer (s : State) : ForwardsAllowed s (runFramer s).2 := by
  have f := framerFrame_runFramer s
  exact forwardsAllowed_of_out_eq f.cfg f.out

/-- By induction over the loop of RX: from any state, RXBUF may hold several frames. -/
theorem forwardsAllowed_runRx (b : Byte) (now : Nat) (s : State) : ForwardsAllowed s (runRx b now s) := by
  have pushed : ForwardsAllowed s (s.pushBytes [b]) := forwardsAllowed_of_out_eq rfl rfl
  exact rxLoop_keeps (ForwardsAllowed s) now (fun u hu => hu.trans (forwardsAllowed_runFramer u))
    (fun body u hu => hu.trans (forwardsAllowed_process body now u)) _ pushed

/-- Settles O17. -/
theorem rxForwardsAllowedPgnsOnly : Obligations.RxForwardsAllowedPgnsOnly := by
  intro s t b now hx
  cases hx
  exact (forwardsAllowed_runRx b now s).out

/-! ## A frame on the wire whose PGN is not allowed (R125, R210) -/

/-- A physical frame passes the length check, so its end marker hands its body to PROCESS. -/
theorem runRx_endMarker_wire {s : State} {f : Wire} {trailing : List Byte} (now : Nat) (hm : s.cfg.mode = .delim)
    (hlen : f.data.length ≤ 8) (hbuf : s.rxbuf = 0xAA :: (f.body ++ trailing)) (hend : 0x55 ∉ f.body ++ trailing) :
    runRx 0x55 now s = process (f.body ++ trailing) now (s.setRxbuf []) := by
  have hsame : s.setRxbuf (0xAA :: (f.body ++ trailing)) = s := by
    rw [← hbuf]
    rfl
  have hcheck := delimCheck_wire f trailing hlen
  rcases runRx_endMarker now hm hend with ⟨code, hdropped, -⟩ | ⟨-, hrun⟩
  · rw [hcheck] at hdropped
    cases hdropped
  · rwa [hsame] at hrun

theorem process_of_ok {body : List Byte} {cf : CanFrame} (now : Nat) (s : State) (h : decodeBody body = .ok cf) :
    process body now s = (routeFrame now (s.setCf cf)).clearCf := by
  rw [process, runDec, h]

/-- Settles O41. -/
theorem filteredFrameLeavesDiagOnly : Obligations.FilteredFrameLeavesDiagOnly := by
  intro s f trailing now hm hlen hbuf hend hfiltered
  have hrun := (runRx_endMarker_wire now hm hlen hbuf hend).trans
    (process_of_ok now (s.setRxbuf []) (decodeBody_wireBody f trailing hlen))
  rw [routeFrame_of_filtered now hfiltered] at hrun
  exact congrArg Host.Outcome.next hrun

end Sys2Proof.FilterLaws
end

section
/-! PROOFS about the Throttle Gate (spec/43_throttle.md): what THR.ACCEPT by itself answers, and from it the spacing of
the admitted first frames of a PGN. -/

namespace Sys2Proof.ThrottleLaws

open Sys2Proof.Machine Sys2Proof.Safety Sys2Proof.StateLaws

variable {s t : State} {p : Pgn} {now : Nat}

/-! ## THR.ACCEPT by itself (R136) -/

/-- The state after an acceptance. -/
def accepted (s : State) (p : Pgn) (now : Nat) : State := withRet (s.thrSet p now) (.verdict true)

/-- The state after a rejection. -/
def rejected (s : State) : State := withRet s (.verdict false)

theorem accepted_get_self (s : State) (p : Pgn) (now : Nat) : (accepted s p now).thr.get p.toNat = some now :=
  Table.get_set_self _ _ _

/-- Different PGNs are different keys. -/
theorem accepted_get_ne (s : State) {p q : Pgn} (now : Nat) (h : q ≠ p) :
    (accepted s p now).thr.get q.toNat = s.thr.get q.toNat :=
  Table.get_set_ne _ _ fun hkey => h (BitVec.eq_of_toNat_eq hkey)

theorem exec_thrAccept_of_admits (h : Admits s p now) : exec (.thrAccept p now) s = .next (accepted s p now) := by
  rcases runThrAccept_cases p now s with ⟨-, hrun⟩ | ⟨hn, -⟩
  · rw [exec_of_effect (.thrAccept p now s), hrun]
    rfl
  · exact absurd h hn

theorem exec_thrAccept_of_not_admits (h : ¬ Admits s p now) : exec (.thrAccept p now) s = .next (rejected s) := by
  rcases runThrAccept_cases p now s with ⟨ha, -⟩ | ⟨-, hrun⟩
  · exact absurd ha h
  · rw [exec_of_effect (.thrAccept p now s), hrun]
    rfl

/-- Everything THR.ACCEPT by itself can answer. -/
theorem exec_thrAccept_cases (h : exec (.thrAccept p now) s = .next t) :
    (Admits s p now ∧ t = accepted s p now) ∨ (¬ Admits s p now ∧ t = rejected s) := by
  by_cases ha : Admits s p now
  · rw [exec_thrAccept_of_admits ha] at h
    cases h
    exact .inl ⟨ha, rfl⟩
  · rw [exec_thrAccept_of_not_admits ha] at h
    cases h
    exact .inr ⟨ha, rfl⟩

theorem admits_of_get_none (h : s.thr.get p.toNat = none) : Admits s p now := by
  intro a ha
  rw [h] at ha
  cases ha

theorem admits_iff_of_get {a : Nat} (h : s.thr.get p.toNat = some a) :
    Admits s p now ↔ (s.cfg.minInterval : Int) ≤ (now : Int) - (a : Int) := by
  simp [Admits, h]

/-- Settles O18. -/
theorem thrAcceptCases : Obligations.ThrAcceptCases := by
  intro s p now
  refine ⟨fun hnone => exec_thrAccept_of_admits (admits_of_get_none hnone), fun a ha => ⟨fun hle => ?_, fun hlt => ?_⟩⟩
  · exact exec_thrAccept_of_admits ((admits_iff_of_get ha).2 hle)
  · refine exec_thrAccept_of_not_admits fun hadm => ?_
    exact absurd ((admits_iff_of_get ha).1 hadm) (Int.not_le.2 hlt)

/-- Settles O19. -/
theorem thrAcceptRecordsAcceptancesOnly : Obligations.ThrAcceptRecordsAcceptancesOnly := by
  intro s t p now hx
  rcases exec_thrAccept_cases hx with ⟨-, rfl⟩ | ⟨-, rfl⟩
  · exact ⟨fun _ hq => accepted_get_ne s now hq, fun _ => accepted_get_self s p now, nofun⟩
  · exact ⟨fun _ _ => rfl, nofun, fun _ => rfl⟩

/-! ## Calls one after another (R136 corner case 1, R137) -/

theorem admissions_cons_of_admits (rest : List Nat) (h : Admits s p now) :
    admissions p (now :: rest) s = now :: admissions p rest (accepted s p now) := by
  simp only [admissions, exec_thrAccept_of_admits h]
  exact if_pos rfl

theorem admissions_cons_of_not_admits (rest : List Nat) (h : ¬ Admits s p now) :
    admissions p (now :: rest) s = admissions p rest (rejected s) := by
  simp only [admissions, exec_thrAccept_of_not_admits h]
  exact if_neg nofun

/-- An admitted call replaces the record by its own time, which is MIN_INTERVAL later already. -/
theorem record_add_le_of_mem_admissions (times : List Nat) :
    ∀ {s : State} {t : Nat}, s.thr.get p.toNat = some t → ∀ a ∈ admissions p times s, t + s.cfg.minInterval ≤ a := by
  induction times with
  | nil => exact fun _ _ ha => nomatch ha
  | cons now rest ih =>
    intro s t ht a ha
    by_cases hadm : Admits s p now
    · have hnow := hadm t ht
      rw [admissions_cons_of_admits rest hadm] at ha
      rcases List.mem_cons.1 ha with rfl | ha
      · omega
      · have hlater : now + s.cfg.minInterval ≤ a := ih (accepted_get_self s p now) a ha
        omega
    · rw [admissions_cons_of_not_admits rest hadm] at ha
      exact ih (s := rejected s) ht a ha

/-- After an admitted call its time is the record, so what follows is spaced from it. -/
theorem admissions_pairwise (times : List Nat) :
    ∀ s : State, (admissions p times s).Pairwise fun a b => a + s.cfg.minInterval ≤ b := by
  induction times with
  | nil => exact fun _ => .nil
  | cons now rest ih =>
    intro s
    by_cases hadm : Admits s p now
    · rw [admissions_cons_of_admits rest hadm]
      exact .cons (record_add_le_of_mem_admissions rest (accepted_get_self s p now)) (ih (accepted s p now))
    · rw [admissions_cons_of_not_admits rest hadm]
      exact ih (rejected s)

/-- Settles O20. -/
theorem admissionsAreSpaced : Obligations.AdmissionsAreSpaced :=
  fun s _ times => ⟨admissions_pairwise times s, fun _ ht => record_add_le_of_mem_admissions times ht⟩

end Sys2Proof.ThrottleLaws
end

section
/-! PROOFS about the Fast-Packet Reassembler (spec/44_reassembler.md): what FP.FIRST, FP.NEXT and FP.EMIT by themselves
answer, one equation per case, and from these: superseding, the one record of a completion, the replay of a later frame,
the order of arrival, and a first frame on the wire. -/

namespace Sys2Proof.ReassemblerLaws

open Sys2Proof.Machine Sys2Proof.Safety Sys2Proof.StateLaws Sys2Proof.EncodingLaws Sys2Proof.FilterLaws

variable {s : State} {p : Pgn} {src : Byte} {e : FastPacketState} {seq : BitVec 3} {fc : BitVec 5} {now : Nat}

/-! ## The store and FP.EMIT (R156) -/

theorem storeEntry_of_complete (src : Byte) (s : State) (h : e.plen.toNat ≤ e.stored.toNat) :
    storeEntry p src e s = (s.fptClear p).emit p src (payloadOf e) := by
  rcases storeEntry_cases p src e s with ⟨-, hs⟩ | ⟨hn, -⟩
  · exact hs
  · exact absurd h (Nat.not_le.2 hn)

theorem storeEntry_of_incomplete (src : Byte) (s : State) (h : e.stored.toNat < e.plen.toNat) :
    storeEntry p src e s = s.fptSet p e := by
  rcases storeEntry_cases p src e s with ⟨hc, -⟩ | ⟨-, hs⟩
  · exact absurd h (Nat.not_lt.2 hc)
  · exact hs

/-- The store overwrites: whatever entry the PGN had is gone without a trace. -/
theorem storeEntry_fptSet (p : Pgn) (src : Byte) (e old : FastPacketState) (s : State) :
    storeEntry p src e (s.fptSet p old) = storeEntry p src e s := by
  rcases Nat.lt_or_ge e.stored.toNat e.plen.toNat with h | h
  · rw [storeEntry_of_incomplete src _ h, storeEntry_of_incomplete src _ h]
    simp only [State.fptSet, Table.set_set]
  · rw [storeEntry_of_complete src _ h, storeEntry_of_complete src _ h]
    simp only [State.fptClear, State.fptSet, Table.erase_set]

theorem payloadOf_eq (e : FastPacketState) : payloadOf e = (inOrder e.frames).take e.plen.toNat := by
  rw [payloadOf, combinedChunks_eq]

/-- Settles O24. -/
theorem fpEmitAppendsTheTrimmedChunks : Obligations.FpEmitAppendsTheTrimmedChunks := by
  intro s p src e hget hcomplete
  rw [exec_of_effect (.fpEmit p src s e hget ((completeEntry_iff e).2 hcomplete)), payloadOf_eq]
  rfl

/-! ## FP.FIRST (R148, R149, R150) -/

theorem runFpFirst_of_short (seq : BitVec 3) (now : Nat) (h : s.cf.data.length < 2) :
    runFpFirst seq now s = s.dropFrame .xFpNolen (some s.cf.pgn) := by
  rcases runFpFirst_cases seq now s with ⟨-, hs⟩ | ⟨h2, -⟩ | ⟨h2, -⟩
  · exact hs
  · exact absurd h (Nat.not_lt.2 h2)
  · exact absurd h (Nat.not_lt.2 h2)

theorem runFpFirst_of_not_admits (seq : BitVec 3) (h2 : 2 ≤ s.cf.data.length) (h : ¬ Admits s s.cf.pgn now) :
    runFpFirst seq now s = s.dropFrame .nThrottled (some s.cf.pgn) := by
  rcases runFpFirst_cases seq now s with ⟨hshort, -⟩ | ⟨-, -, hs⟩ | ⟨-, ha, -⟩
  · exact absurd h2 (Nat.not_le.2 hshort)
  · exact hs
  · exact absurd ha h

theorem runFpFirst_of_admits (seq : BitVec 3) (h2 : 2 ≤ s.cf.data.length) (h : Admits s s.cf.pgn now) :
    runFpFirst seq now s =
      storeEntry s.cf.pgn s.cf.source (firstEntry seq s.cf.data) (s.thrSet s.cf.pgn now) := by
  rcases runFpFirst_cases seq now s with ⟨hshort, -⟩ | ⟨-, hn, -⟩ | ⟨-, -, hs⟩
  · exact absurd h2 (Nat.not_le.2 hshort)
  · exact absurd h hn
  · exact hs

/-- The fields of a first frame's data, in the reversed order in which the registers hold them (R67). -/
theorem firstEntry_append (seq : BitVec 3) (chunk : List Byte) (plen ctl : Byte) :
    firstEntry seq (chunk ++ [plen, ctl]) = ⟨seq, plen, BitVec.ofNat 32 chunk.length, [(0, chunk)]⟩ := by
  have hplen : firstPlen (chunk ++ [plen, ctl]) = plen := by simp [firstPlen]
  have hchunk : firstChunk (chunk ++ [plen, ctl]) = chunk := by simp [firstChunk]
  rw [firstEntry, hplen, hchunk]

/-- The bytes of one short chunk are counted without wrapping. -/
theorem toNat_length_of_le {chunk : List Byte} (h : chunk.length ≤ 6) :
    (BitVec.ofNat 32 chunk.length).toNat = chunk.length := by
  rw [BitVec.toNat_ofNat]
  omega

/-- A chunk alone under key 0 is the whole of what an entry holds. -/
theorem inOrder_singleton_zero (chunk : List Byte) : inOrder [(0, chunk)] = chunk := by
  simp [inOrder, List.range_succ, Table.get_cons]

/-- An admitted first frame, its data taken apart. -/
theorem runFpFirst_of_data {chunk : List Byte} {plen ctl : Byte} (seq : BitVec 3)
    (hdata : s.cf.data = chunk ++ [plen, ctl]) (h : Admits s s.cf.pgn now) :
    runFpFirst seq now s =
      storeEntry s.cf.pgn s.cf.source ⟨seq, plen, BitVec.ofNat 32 chunk.length, [(0, chunk)]⟩
        (s.thrSet s.cf.pgn now) := by
  have h2 : 2 ≤ s.cf.data.length := by simp [hdata]
  rw [runFpFirst_of_admits seq h2 h, hdata, firstEntry_append]

/-- A first frame that does not bring all of its message makes the entry. -/
theorem runFpFirst_collects {chunk : List Byte} {plen ctl : Byte} (seq : BitVec 3)
    (hdata : s.cf.data = chunk ++ [plen, ctl]) (hlen : chunk.length ≤ 6) (h : Admits s s.cf.pgn now)
    (hmore : chunk.length < plen.toNat) :
    runFpFirst seq now s =
      (s.thrSet s.cf.pgn now).fptSet s.cf.pgn ⟨seq, plen, BitVec.ofNat 32 chunk.length, [(0, chunk)]⟩ := by
  rw [runFpFirst_of_data seq hdata h]
  exact storeEntry_of_incomplete _ _ (by rwa [toNat_length_of_le hlen])

/-- A first frame that brings all of its message is emitted at once, and no entry stays. -/
theorem runFpFirst_completes {chunk : List Byte} {plen ctl : Byte} (seq : BitVec 3)
    (hdata : s.cf.data = chunk ++ [plen, ctl]) (hlen : chunk.length ≤ 6) (h : Admits s s.cf.pgn now)
    (hall : plen.toNat ≤ chunk.length) :
    runFpFirst seq now s =
      ((s.thrSet s.cf.pgn now).fptClear s.cf.pgn).emit s.cf.pgn s.cf.source (chunk.take plen.toNat) := by
  rw [runFpFirst_of_data seq hdata h, storeEntry_of_complete _ _ (by rwa [toNat_length_of_le hlen]), payloadOf_eq,
    inOrder_singleton_zero]

/-- Settles O21. -/
theorem fpFirstCases : Obligations.FpFirstCases := by
  intro s seq now
  refine ⟨fun hshort => ?short, fun chunk plen ctl hdata hlen => ⟨fun hn => ?rejected, fun ha hmore => ?collects,
    fun ha hall => ?completes⟩⟩
  case short => exact congrArg Host.Outcome.next (runFpFirst_of_short seq now hshort)
  case rejected =>
    have h2 : 2 ≤ s.cf.data.length := by simp [hdata]
    exact congrArg Host.Outcome.next (runFpFirst_of_not_admits seq h2 hn)
  case collects => exact congrArg Host.Outcome.next (runFpFirst_collects seq hdata hlen ha hmore)
  case completes => exact congrArg Host.Outcome.next (runFpFirst_completes seq hdata hlen ha hall)

/-- Settles O22: the throttle does not see the entry, and the store overwrites it. -/
theorem supersedingIsUnconditional : Obligations.SupersedingIsUnconditional := by
  intro s seq now old h2 ha
  have hsame : runFpFirst seq now (s.fptSet s.cf.pgn old) = runFpFirst seq now s := by
    rw [runFpFirst_of_admits seq h2 ha, runFpFirst_of_admits (s := s.fptSet s.cf.pgn old) seq h2 ha]
    exact storeEntry_fptSet _ _ _ old (s.thrSet s.cf.pgn now)
  exact congrArg Host.Outcome.next hsame

/-! ## FP.NEXT (R152) -/

theorem runFpNext_of_none (seq : BitVec 3) (fc : BitVec 5) (h : s.fptGet s.cf.pgn = none) :
    runFpNext seq fc s = s.dropFrame .xFpNostart (some s.cf.pgn) := by
  simp only [runFpNext, h]

theorem runFpNext_of_seq_ne (fc : BitVec 5) (h : s.fptGet s.cf.pgn = some e) (hseq : seq ≠ e.seq) :
    runFpNext seq fc s = s.dropFrame .xFpSeq (some s.cf.pgn) := by
  simp only [runFpNext, h, if_pos hseq]

theorem runFpNext_of_present (h : s.fptGet s.cf.pgn = some e) (hseq : seq = e.seq)
    (hfc : e.frames.get fc.toNat ≠ none) : runFpNext seq fc s = s.dropFrame .xFpDup (some s.cf.pgn) := by
  simp only [runFpNext, h, if_neg (not_not.2 hseq), if_pos ((chunkPresent_iff e fc).2 hfc)]

theorem runFpNext_of_absent (h : s.fptGet s.cf.pgn = some e) (hseq : seq = e.seq)
    (hfc : e.frames.get fc.toNat = none) :
    runFpNext seq fc s = storeEntry s.cf.pgn s.cf.source (addChunk e fc (nextChunk s.cf.data)) s := by
  have hp : ¬ chunkPresent e fc = true := fun hp => (chunkPresent_iff e fc).1 hp hfc
  simp only [runFpNext, h, if_neg (not_not.2 hseq), if_neg hp]

theorem nextChunk_append (chunk : List Byte) (ctl : Byte) : nextChunk (chunk ++ [ctl]) = chunk := by
  simp [nextChunk]

theorem addChunk_eq (e : FastPacketState) (fc : BitVec 5) (chunk : List Byte) :
    addChunk e fc chunk =
      ⟨e.seq, e.plen, BitVec.ofNat 32 (e.stored.toNat + chunk.length), e.frames.set fc.toNat chunk⟩ := by
  rw [addChunk, BitVec.ofNat_add, BitVec.ofNat_toNat, BitVec.setWidth_eq]

/-- Settles O23. -/
theorem fpNextCases : Obligations.FpNextCases := by
  intro s seq fc
  refine ⟨fun hnone => ?nostart, fun e hget => ⟨fun hseq => ?seq, fun hseq hfc => ?dup,
    fun chunk ctl hseq hfc hdata hlen hstored => ?store⟩⟩
  case nostart => exact congrArg Host.Outcome.next (runFpNext_of_none seq fc hnone)
  case seq => exact congrArg Host.Outcome.next (runFpNext_of_seq_ne fc hget hseq)
  case dup => exact congrArg Host.Outcome.next (runFpNext_of_present hget hseq hfc)
  case store =>
    have hrun := runFpNext_of_absent hget hseq hfc
    have hcount := stored_addChunk fc chunk hstored hlen
    rw [hdata, nextChunk_append] at hrun
    refine ⟨fun hmore => ?_, fun hall => ?_⟩
    · rw [storeEntry_of_incomplete _ _ (by rwa [hcount]), addChunk_eq] at hrun
      exact congrArg Host.Outcome.next hrun
    · rw [storeEntry_of_complete _ _ (by rwa [hcount]), payloadOf_eq] at hrun
      exact congrArg Host.Outcome.next hrun

/-! ## Completion and replay (R156, R161) -/

/-- OUT grows by the store of an absent chunk that completes the entry, and by nothing else. -/
theorem runFpNext_of_out_ne (h : (runFpNext seq fc s).out ≠ s.out) :
    ∃ e, s.fptGet s.cf.pgn = some e ∧ e.frames.get fc.toNat = none ∧
      (addChunk e fc (nextChunk s.cf.data)).plen.toNat ≤ (addChunk e fc (nextChunk s.cf.data)).stored.toNat ∧
      runFpNext seq fc s =
        (s.fptClear s.cf.pgn).emit s.cf.pgn s.cf.source (payloadOf (addChunk e fc (nextChunk s.cf.data))) := by
  rcases runFpNext_cases seq fc s with ⟨-, hr⟩ | ⟨e, hget, ⟨-, hr⟩ | ⟨-, -, hr⟩ | ⟨-, hfc, hr⟩⟩
  · exact absurd (congrArg State.out hr) h
  · exact absurd (congrArg State.out hr) h
  · exact absurd (congrArg State.out hr) h
  · rcases storeEntry_cases s.cf.pgn s.cf.source (addChunk e fc (nextChunk s.cf.data)) s with ⟨hc, hs⟩ | ⟨-, hs⟩
    · exact ⟨e, hget, hfc, hc, hr.trans hs⟩
    · exact absurd (congrArg State.out (hr.trans hs)) h

/-- FPT changes, and the entry stays, by the store of an absent chunk that does not complete it. -/
theorem runFpNext_of_fpt_ne (h : (runFpNext seq fc s).fpt ≠ s.fpt)
    (hstays : (runFpNext seq fc s).fptGet s.cf.pgn ≠ none) :
    ∃ e, seq = e.seq ∧ runFpNext seq fc s = s.fptSet s.cf.pgn (addChunk e fc (nextChunk s.cf.data)) := by
  rcases runFpNext_cases seq fc s with ⟨-, hr⟩ | ⟨e, -, ⟨-, hr⟩ | ⟨-, -, hr⟩ | ⟨hseq, -, hr⟩⟩
  · exact absurd (congrArg State.fpt hr) h
  · exact absurd (congrArg State.fpt hr) h
  · exact absurd (congrArg State.fpt hr) h
  · rcases storeEntry_cases s.cf.pgn s.cf.source (addChunk e fc (nextChunk s.cf.data)) s with ⟨-, hs⟩ | ⟨-, hs⟩
    · rw [hr, hs] at hstays
      exact absurd (Table.get_erase_self _ _) hstays
    · exact ⟨e, hseq, hr.trans hs⟩

/-- Settles O25: the bookkeeping of the entry (R28) gives the payload its length. -/
theorem completionEmitsExactlyOnce : Obligations.CompletionEmitsExactlyOnce := by
  intro s t seq fc hinv hx hout
  cases hx
  obtain ⟨-, -, hstores⟩ := hinv
  obtain ⟨-, -, hdata, -⟩ := id hstores
  obtain ⟨e, hget, hfc, hc, hrun⟩ := runFpNext_of_out_ne hout
  have hchunk : (nextChunk s.cf.data).length ≤ 7 := by
    rw [length_nextChunk]
    omega
  obtain ⟨hwf, hkeys, hsum, -, -⟩ := entryInv_addChunk (entryInv_of_fptGet hstores hget) hfc hchunk
  have hgone : (s.fpt.erase s.cf.pgn.toNat).get s.cf.pgn.toNat = none := Table.get_erase_self _ _
  rw [hrun]
  exact ⟨e, _, hget, rfl, rfl, rfl, length_payloadOf hwf hkeys hsum hc, hgone,
    fun seq' fc' => congrArg Host.Outcome.next (runFpNext_of_none seq' fc' hgone)⟩

/-- Settles O27: the entry that was stored holds the counter of the frame. -/
theorem replayedLaterFrameChangesNothing : Obligations.ReplayedLaterFrameChangesNothing := by
  intro s t seq fc hx hfpt hstays
  cases hx
  obtain ⟨e, hseq, hrun⟩ := runFpNext_of_fpt_ne hfpt hstays
  have hpresent : (addChunk e fc (nextChunk s.cf.data)).frames.get fc.toNat ≠ none := by
    simp [addChunk]
  rw [hrun]
  exact congrArg Host.Outcome.next
    (runFpNext_of_present (s := s.fptSet s.cf.pgn _) (Table.get_set_self _ _ _) hseq hpresent)

/-! ## The order of arrival (R152 corner case 1, R161) -/

/-- The registers hold the data of the next frame of the same PGN and source. -/
def withData (s : State) (data : List Byte) : State := s.setCf { s.cf with data := data }

theorem withData_data (s : State) (data : List Byte) : (withData s data).cf.data = data := rfl

/-- The entry with the chunks of several later frames added, one after another. -/
def addChunks (e : FastPacketState) (fs : List (BitVec 5 × List Byte)) : FastPacketState :=
  fs.foldl (fun e x => addChunk e x.1 x.2) e

theorem addChunks_cons (e : FastPacketState) (x : BitVec 5 × List Byte) (fs : List (BitVec 5 × List Byte)) :
    addChunks e (x :: fs) = addChunks (addChunk e x.1 x.2) fs := rfl

theorem addChunk_comm (hw : e.frames.wf) {fc' : BitVec 5} (h : fc ≠ fc') (chunk chunk' : List Byte) :
    addChunk (addChunk e fc chunk) fc' chunk' = addChunk (addChunk e fc' chunk') fc chunk := by
  have hkeys : fc.toNat ≠ fc'.toNat := BitVec.toNat_ne_iff_ne.2 h
  simp only [addChunk, Table.set_comm hw hkeys, add_right_comm]

/-- By induction on the permutation: neighbours with different frame counters may change places. -/
theorem addChunks_perm {fs gs : List (BitVec 5 × List Byte)} (h : fs.Perm gs) :
    ∀ {e : FastPacketState}, e.frames.wf → (fs.map Prod.fst).Nodup → addChunks e fs = addChunks e gs := by
  induction h with
  | nil => exact fun _ _ => rfl
  | cons x _ ih => exact fun hw hnd => ih (Table.wf_set _ _ hw) (List.nodup_cons.1 hnd).2
  | swap x y l =>
    intro e hw hnd
    have hne : y.1 ≠ x.1 := fun heq => (List.nodup_cons.1 hnd).1 (heq ▸ List.mem_cons_self)
    rw [addChunks_cons, addChunks_cons, addChunk_comm hw hne]
    rfl
  | trans h₁ _ ih₁ ih₂ => exact fun hw hnd => (ih₁ hw hnd).trans (ih₂ hw ((h₁.map Prod.fst).nodup hnd))

/-- Later frames for the entry `e` with distinct, absent frame counters, of which all are needed: without any one of
them the bytes do not reach `plen`. -/
structure AllNeeded (e : FastPacketState) (fs : List (BitVec 5 × List Byte)) : Prop where
  inv : EntryInv e
  nodup : (fs.map Prod.fst).Nodup
  frames : ∀ x ∈ fs, e.frames.get x.1.toNat = none ∧ x.2.length ≤ 7 ∧
    e.stored.toNat + (fs.map fun y => y.2.length).sum < e.plen.toNat + x.2.length

section
variable {x y : BitVec 5 × List Byte} {fs gs : List (BitVec 5 × List Byte)}

theorem AllNeeded.head_absent (h : AllNeeded e (x :: fs)) : e.frames.get x.1.toNat = none := by
  obtain ⟨habsent, -, -⟩ := h.frames x List.mem_cons_self
  exact habsent

theorem AllNeeded.head_short (h : AllNeeded e (x :: fs)) : x.2.length ≤ 7 := by
  obtain ⟨-, hshort, -⟩ := h.frames x List.mem_cons_self
  exact hshort

theorem AllNeeded.stored_head (h : AllNeeded e (x :: fs)) :
    (addChunk e x.1 x.2).stored.toNat = e.stored.toNat + x.2.length :=
  stored_addChunk _ _ (entryInv_stored_le h.inv) h.head_short

/-- A frame before the last one does not complete the entry: the one behind it is needed. -/
theorem AllNeeded.incomplete (h : AllNeeded e (x :: y :: fs)) :
    (addChunk e x.1 x.2).stored.toNat < (addChunk e x.1 x.2).plen.toNat := by
  obtain ⟨-, -, hneeded⟩ := h.frames y (List.mem_cons_of_mem _ List.mem_cons_self)
  simp only [List.map_cons, List.sum_cons] at hneeded
  rw [h.stored_head]
  show e.stored.toNat + x.2.length < e.plen.toNat
  omega

/-- The entry that has the first frame's chunk needs all the others. -/
theorem AllNeeded.tail (h : AllNeeded e (x :: y :: fs)) : AllNeeded (addChunk e x.1 x.2) (y :: fs) where
  inv := by
    obtain ⟨hw, hk, hsum, hzero, hl⟩ := entryInv_addChunk h.inv h.head_absent h.head_short
    exact ⟨hw, hk, hsum, hzero, hl, h.incomplete⟩
  nodup := (List.nodup_cons.1 h.nodup).2
  frames := by
    intro z hz
    obtain ⟨habsent, hshort, hneeded⟩ := h.frames z (List.mem_cons_of_mem _ hz)
    have hne : z.1 ≠ x.1 := fun heq => (List.nodup_cons.1 h.nodup).1 (heq ▸ List.mem_map_of_mem hz)
    rw [List.map_cons, List.sum_cons, ← Nat.add_assoc] at hneeded
    rw [h.stored_head]
    exact ⟨(Table.get_set_ne _ _ (BitVec.toNat_ne_iff_ne.2 hne)).trans habsent, hshort, hneeded⟩

theorem AllNeeded.perm (h : AllNeeded e fs) (hp : fs.Perm gs) : AllNeeded e gs where
  inv := h.inv
  nodup := (hp.map Prod.fst).nodup h.nodup
  frames := by
    intro x hx
    rw [← (hp.map fun y => y.2.length).sum_eq]
    exact h.frames x (hp.mem_iff.2 hx)

/-- The state once the chunk of `x` is in the entry `e`, `x` still standing in the registers. -/
def collected (s : State) (e : FastPacketState) (x : BitVec 5 × List Byte) : State :=
  (withData s (x.2 ++ [controlByte e.seq x.1])).fptSet s.cf.pgn (addChunk e x.1 x.2)

theorem feedLater_nil (seq : BitVec 3) (s : State) : feedLater seq [] s = .next (withData s []) := rfl

/-- A later frame of the entry's sequence with an absent counter reaches the store. -/
theorem feedLater_cons (fs : List (BitVec 5 × List Byte)) (hget : s.fptGet s.cf.pgn = some e)
    (hx : e.frames.get x.1.toNat = none) :
    feedLater e.seq (x :: fs) s = feedLater e.seq fs
      (storeEntry s.cf.pgn s.cf.source (addChunk e x.1 x.2) (withData s (x.2 ++ [controlByte e.seq x.1]))) := by
  have hrun := runFpNext_of_absent (s := withData s (x.2 ++ [controlByte e.seq x.1])) hget rfl hx
  rw [withData_data, nextChunk_append] at hrun
  exact congrArg (feedLater e.seq fs) hrun

theorem feedLater_cons_of_incomplete (fs : List (BitVec 5 × List Byte)) (hget : s.fptGet s.cf.pgn = some e)
    (hx : e.frames.get x.1.toNat = none)
    (hn : (addChunk e x.1 x.2).stored.toNat < (addChunk e x.1 x.2).plen.toNat) :
    feedLater e.seq (x :: fs) s = feedLater e.seq fs (collected s e x) := by
  rw [feedLater_cons fs hget hx, storeEntry_of_incomplete _ _ hn, collected]

/-- The store does not look at the data in the registers. -/
theorem withData_storeEntry_withData (p : Pgn) (src : Byte) (e : FastPacketState) (s : State) (d d' : List Byte) :
    withData (storeEntry p src e (withData s d)) d' = withData (storeEntry p src e s) d' := by
  rcases Nat.lt_or_ge e.stored.toNat e.plen.toNat with h | h
  · rw [storeEntry_of_incomplete src _ h, storeEntry_of_incomplete src _ h]
    rfl
  · rw [storeEntry_of_complete src _ h, storeEntry_of_complete src _ h]
    rfl

/-- What the earlier frames leave behind does not show after the last one's store. -/
theorem withData_storeEntry_collected (e' : FastPacketState) (d : List Byte) :
    withData (storeEntry s.cf.pgn src e' (collected s e x)) d = withData (storeEntry s.cf.pgn src e' s) d := by
  rw [collected, storeEntry_fptSet, withData_storeEntry_withData]

end

/-- Later frames of which all are needed, one after another, are one store of the entry with all their chunks. -/
theorem feedLater_eq_storeEntry (fs : List (BitVec 5 × List Byte)) :
    ∀ {s : State} {e : FastPacketState} {x : BitVec 5 × List Byte}, s.fptGet s.cf.pgn = some e →
      AllNeeded e (x :: fs) →
      feedLater e.seq (x :: fs) s =
        .next (withData (storeEntry s.cf.pgn s.cf.source (addChunks e (x :: fs)) s) []) := by
  induction fs with
  | nil =>
    intro s e x hget h
    rw [feedLater_cons [] hget h.head_absent, feedLater_nil, withData_storeEntry_withData]
    rfl
  | cons y fs ih =>
    intro s e x hget h
    have hcollected : (collected s e x).fptGet s.cf.pgn = some (addChunk e x.1 x.2) := Table.get_set_self _ _ _
    calc feedLater e.seq (x :: y :: fs) s
        = feedLater e.seq (y :: fs) (collected s e x) :=
          feedLater_cons_of_incomplete _ hget h.head_absent h.incomplete
      _ = .next (withData (storeEntry s.cf.pgn s.cf.source (addChunks e (x :: y :: fs)) (collected s e x)) []) :=
          ih hcollected h.tail
      _ = .next (withData (storeEntry s.cf.pgn s.cf.source (addChunks e (x :: y :: fs)) s) []) := by
          rw [withData_storeEntry_collected]

/-- Settles O26: both orders are one store, of the same entry. -/
theorem arrivalOrderDoesNotMatter : Obligations.ArrivalOrderDoesNotMatter := by
  intro s e fs gs hinv hget hperm hnodup hframes
  obtain ⟨-, -, hstores⟩ := hinv
  have hentry : EntryInv e := entryInv_of_fptGet hstores hget
  obtain ⟨hwf, -⟩ := id hentry
  have hneeded : AllNeeded e fs := ⟨hentry, hnodup, hframes⟩
  have hneeded' : AllNeeded e gs := hneeded.perm hperm
  have hchunks : addChunks e fs = addChunks e gs := addChunks_perm hperm hwf hnodup
  cases fs with
  | nil => rw [hperm.nil_eq]
  | cons x fs =>
    cases gs with
    | nil => exact absurd hperm.eq_nil (List.cons_ne_nil x fs)
    | cons y gs => rw [feedLater_eq_storeEntry fs hget hneeded, feedLater_eq_storeEntry gs hget hneeded', hchunks]

/-! ## A first frame on the wire (R67, R148, R178) -/

/-- The control byte of a first frame selects FP.FIRST (R66, R146). -/
theorem reassemble_of_first {chunk : List Byte} {plen : Byte} {seq : BitVec 3} (now : Nat)
    (hdata : s.cf.data = chunk ++ [plen, controlByte seq 0]) : reassemble now s = runFpFirst seq now s := by
  have hcontrol : controlOf s.cf.data = some (controlByte seq 0) := by simp [controlOf, hdata]
  simp only [reassemble, hcontrol, controlFc_controlByte, controlSeq_controlByte, if_true]

theorem routeFrame_of_fast (now : Nat) (h : allowed s.cfg s.cf.pgn = true) (hfast : isFast s.cfg.fast s.cf.pgn = true) :
    routeFrame now s = reassemble now s := by
  rw [routeFrame, if_pos h, if_pos hfast]

theorem reverse_firstFrameData (seq : BitVec 3) (plen : Byte) (payload : List Byte) :
    (firstFrameData seq plen payload).reverse = payload.reverse ++ [plen, controlByte seq 0] := by
  simp [firstFrameData]

/-- RXBUF is empty and a physical frame stands decoded in the registers. -/
def withFrame (s : State) (f : Wire) : State :=
  (s.setRxbuf []).setCf ⟨f.pgn.zeroExtend 32, f.source, f.data.reverse⟩

/-- The end marker of a physical frame hands the decoded frame to the stages after DEC. -/
theorem runRx_endMarker_routes {f : Wire} (now : Nat) (hm : s.cfg.mode = .delim) (hlen : f.data.length ≤ 8)
    (hbuf : s.rxbuf = 0xAA :: f.body) (hend : 0x55 ∉ f.body) :
    runRx 0x55 now s = (routeFrame now (withFrame s f)).clearCf := by
  rw [← List.append_nil f.body] at hbuf hend
  exact (runRx_endMarker_wire now hm hlen hbuf hend).trans
    (process_of_ok now (s.setRxbuf []) (decodeBody_wireBody f [] hlen))

/-- Settles O42: through filter and routing to the case of FP.FIRST that collects. -/
theorem firstFrameStartsCollecting : Obligations.FirstFrameStartsCollecting := by
  intro s f seq plen payload now hm hfdata hlen hmore hbuf hend hallowed hfast hadmits
  have hwire : f.data.length ≤ 8 := by
    rw [hfdata]
    exact Nat.add_le_add_right hlen 2
  have hdata : (withFrame s f).cf.data = payload.reverse ++ [plen, controlByte seq 0] :=
    (congrArg List.reverse hfdata).trans (reverse_firstFrameData seq plen payload)
  rw [← List.length_reverse (as := payload)] at hlen hmore
  have hrun : runRx 0x55 now s = (runFpFirst seq now (withFrame s f)).clearCf := by
    rw [runRx_endMarker_routes now hm hwire hbuf hend, routeFrame_of_fast now hallowed hfast,
      reassemble_of_first now hdata]
  rw [runFpFirst_collects seq hdata hlen hadmits hmore, List.length_reverse] at hrun
  rw [← Wire.toNat_pgn_zeroExtend]
  exact congrArg Host.Outcome.next hrun

end Sys2Proof.ReassemblerLaws
end

section
/-! PROOFS about the pipeline (spec/45_pipeline.md): what one byte of the stream becomes, from the wire to OUT; that RX
is its operations in order and runs its loop to the exit; that a chunk is the same as its bytes one at a time; and that
the events of the interface run without a stop. -/

namespace Sys2Proof.PipelineLaws

open Sys2Proof.Machine Sys2Proof.Safety Sys2Proof.StateLaws Sys2Proof.EncodingLaws Sys2Proof.FramerLaws
open Sys2Proof.DecoderLaws Sys2Proof.FilterLaws Sys2Proof.ReassemblerLaws

/-! ## SF.EMIT (R180) -/

/-- Settles O32. -/
theorem sfEmitForwardsTheFrame : Obligations.SfEmitForwardsTheFrame :=
  fun s => exec_of_effect (.sfEmit s)

/-! ## A single frame from the wire to OUT (R111, R178, R180) -/

theorem routeFrame_of_single {s : State} (now : Nat) (h : allowed s.cfg s.cf.pgn = true)
    (hfast : isFast s.cfg.fast s.cf.pgn = false) : routeFrame now s = runSfEmit s := by
  rw [routeFrame, if_pos h, hfast]
  rfl

/-- PROCESS of a physical frame of an allowed PGN that is not FAST appends its record. -/
theorem process_wire_single {s : State} {f : Wire} (after : List Byte) (now : Nat) (hlen : f.data.length ≤ 8)
    (hallowed : allowed s.cfg (f.pgn.zeroExtend 32) = true)
    (hsingle : isFast s.cfg.fast (f.pgn.zeroExtend 32) = false) :
    process (f.body ++ after) now s = (s.emit (f.pgn.zeroExtend 32) f.source f.data.reverse).clearCf := by
  rw [process_of_ok now s (decodeBody_wireBody f after hlen), routeFrame_of_single now hallowed hsingle]
  rfl

/-- Settles O38. -/
theorem delimSingleFrameReachesOut : Obligations.DelimSingleFrameReachesOut := by
  intro s f trailing now hm hlen hbuf hend hallowed hsingle
  have hrun := (runRx_endMarker_wire now hm hlen hbuf hend).trans
    (process_wire_single trailing now hlen hallowed hsingle)
  exact congrArg Host.Outcome.next hrun

/-- Settles O39. -/
theorem fixedSingleFrameReachesOut : Obligations.FixedSingleFrameReachesOut := by
  intro s f padding b now hm hskip hlen hbuf hallowed hsingle
  have htwelve : s.rxbuf.length = 12 := by
    have hlength := congrArg List.length hbuf
    simp only [Wire.fixed, List.length_append, List.length_singleton, f.length_body] at hlength
    omega
  have hrun := runRx_thirteenth b now hm hskip htwelve
  rw [hbuf] at hrun
  exact congrArg Host.Outcome.next
    (hrun.trans (process_wire_single padding now (by omega) hallowed hsingle))

/-! ## A byte that completes no frame (R44, R176 corner cases 2 and 3) -/

/-- With the framer asking for more data RX is over. -/
theorem runRx_of_needMoreData {s : State} {b : Byte} (now : Nat)
    (h : (runFramer (s.pushBytes [b])).1 = .needMoreData) : runRx b now s = (runFramer (s.pushBytes [b])).2 :=
  rxLoop_of_needMoreData now _ h

/-- A byte after which RXBUF and SKIP still are as between two events is only buffered. -/
theorem runRx_of_shapes {s : State} {b : Byte} (now : Nat) (hrx : RxbufShape (s.pushBytes [b]))
    (hskip : SkipShape (s.pushBytes [b])) : runRx b now s = s.pushBytes [b] := by
  have hidle := runFramer_idle hrx hskip
  rw [runRx_of_needMoreData now (by rw [hidle]), hidle]

theorem skipShape_of_not_skip {s : State} (h : s.skip = false) : SkipShape s := by
  unfold SkipShape
  split
  · exact h
  · exact fun hskip => absurd hskip (by simp [h])

theorem rxbufShape_delim_iff {s : State} (hm : s.cfg.mode = .delim) :
    RxbufShape s ↔ s.rxbuf = [] ∨ (s.rxbuf.head? = some 0xAA ∧ 0x55 ∉ s.rxbuf) := by
  rw [RxbufShape, if_pos hm]

theorem rxbufShape_fixed_iff {s : State} (hm : s.cfg.mode = .fixed) : RxbufShape s ↔ s.rxbuf.length ≤ 12 := by
  rw [RxbufShape, if_neg (by simp [hm])]

theorem not_mem_pushByte {s : State} {b x : Byte} (h : x ∉ s.rxbuf) (hb : b ≠ x) : x ∉ (s.pushBytes [b]).rxbuf := by
  simp [h, hb.symm]

/-- A byte in front of the first `0xAA` does not stay. -/
theorem runRx_of_noise {s : State} {b : Byte} (now : Nat) (hm : s.cfg.mode = .delim) (hbuf : s.rxbuf = [])
    (hb : b ≠ 0xAA) : runRx b now s = s := by
  have hstart : 0xAA ∉ s.rxbuf := by simp [hbuf]
  have hcut : runFramer (s.pushBytes [b]) = (.needMoreData, s) := by
    rw [(framer_of_delim (s := s.pushBytes [b]) hm).2,
      runDelim_of_no_candidate (cutDelim_no_start (not_mem_pushByte hstart hb)), pushBytes_setRxbuf_nil [b] hbuf]
  rw [runRx_of_needMoreData now (by rw [hcut]), hcut]

/-- Settles O36: in the three clauses that keep the byte, RXBUF and SKIP still are as between two events. -/
theorem incompleteFrameIsOnlyBuffered : Obligations.IncompleteFrameIsOnlyBuffered := by
  intro s b now hrx hskip
  have buffered : RxbufShape (s.pushBytes [b]) → exec (.rx b now) s = .next (s.pushBytes [b]) := fun h =>
    congrArg Host.Outcome.next (runRx_of_shapes now h (skipShape_of_not_skip hskip))
  refine ⟨fun hm hne hb => buffered ?candidate, fun hm hnil hb => ?start, fun hm hnil hb => ?noise,
    fun hm hlen => buffered ?fixed⟩
  case candidate =>
    obtain ⟨hhead, hend⟩ := ((rxbufShape_delim_iff hm).1 hrx).resolve_left hne
    refine (rxbufShape_delim_iff (s := s.pushBytes [b]) hm).2 (.inr ⟨?_, not_mem_pushByte hend hb⟩)
    rw [State.pushBytes_rxbuf, List.head?_append_of_ne_nil _ hne, hhead]
  case start =>
    have hpushed : s.pushBytes [b] = { s with rxbuf := [0xAA] } := by rw [State.pushBytes, hnil, hb]; rfl
    rw [hpushed] at buffered
    exact buffered ((rxbufShape_delim_iff (s := { s with rxbuf := [0xAA] }) hm).2 (.inr ⟨rfl, by simp⟩))
  case noise => exact congrArg Host.Outcome.next (runRx_of_noise now hm hnil hb)
  case fixed => exact (rxbufShape_fixed_iff (s := s.pushBytes [b]) hm).2 (by simp; omega)

/-- In DELIM mode only the end marker completes a candidate. -/
theorem runFramer_waits_of_delim {s : State} {b : Byte} (hm : s.cfg.mode = .delim) (hrx : RxbufShape s)
    (hb : b ≠ 0x55) : (runFramer (s.pushBytes [b])).1 = .needMoreData := by
  have hend : 0x55 ∉ s.rxbuf := by
    rcases (rxbufShape_delim_iff hm).1 hrx with hnil | ⟨-, hend⟩
    · simp [hnil]
    · exact hend
  rw [(framer_of_delim (s := s.pushBytes [b]) hm).2]
  rcases runDelim_cases (s.pushBytes [b]) with ⟨-, h⟩ | ⟨_, _, -, -, -, h⟩ | ⟨pre, mid, post, hbuf, -⟩
  · rw [h]
  · rw [h]
  · exact absurd (by rw [hbuf]; simp) (not_mem_pushByte hend hb)

/-- In FIXED mode the separator completes nothing, and neither do fewer than 13 bytes. -/
theorem runFramer_waits_of_fixed {s : State} (b : Byte) (hm : s.cfg.mode = .fixed) (hlen : s.rxbuf.length < 12) :
    (runFramer (s.pushBytes [b])).1 = .needMoreData := by
  rw [(framer_of_fixed (s := s.pushBytes [b]) hm).2]
  have hshort := skipIfReady_length (s.pushBytes [b])
  rw [State.pushBytes_rxbuf, List.length_append, List.length_singleton] at hshort
  rcases runFixed_cases (s.pushBytes [b]) with ⟨-, h, -, -⟩ | ⟨-, -, h⟩ | ⟨-, hlong, -⟩
  · rw [h]
  · rw [h]
  · omega

/-- Settles O43: the framer, which is not told the time, asks for more data, and RX is over. -/
theorem earlierTimeStampsAreNotKept : Obligations.EarlierTimeStampsAreNotKept := by
  intro s b now now' hinv hincomplete
  obtain ⟨hrx, hskip, -⟩ := hinv
  have hwaits : (runFramer (s.pushBytes [b])).1 = .needMoreData := by
    rcases hincomplete with ⟨hm, hb⟩ | ⟨hm, hlen | hpending⟩
    · exact runFramer_waits_of_delim hm hrx hb
    · exact runFramer_waits_of_fixed b hm hlen
    · have hnil : s.rxbuf = [] := by
        rw [SkipShape, if_neg (by simp [hm])] at hskip
        exact hskip hpending
      exact runFramer_waits_of_fixed b hm (by simp [hnil])
  exact congrArg Host.Outcome.next ((runRx_of_needMoreData now hwaits).trans (runRx_of_needMoreData now' hwaits).symm)

/-! ## The exit of the loop (R176 corner case 4) -/

/-- The framer operation by itself, said once for both modes. -/
theorem exec_framerOf (s : State) :
    exec (framerOf s) s = .next (withRet (runFramer s).2 (retOfFrm (runFramer s).1)) :=
  exec_of_effect (.framer s)

/-- After RX, from any state, the framer waits: the loop ends by its exit, and a framer that has asked for more data
asks again. -/
theorem runFramer_runRx (b : Byte) (now : Nat) (s : State) :
    runFramer (runRx b now s) = (.needMoreData, runRx b now s) := by
  obtain ⟨u, hmore, hexit⟩ := rxLoop_exits now (s := s.pushBytes [b]) (Nat.lt_succ_self _)
  have hrun : runRx b now s = (runFramer u).2 := hexit
  rw [hrun, runFramer_again hmore]

/-- Settles O34. -/
theorem rxLeavesNothingToCut : Obligations.RxLeavesNothingToCut := by
  intro s t b now hx
  cases hx
  rw [exec_framerOf, runFramer_runRx]
  rfl

/-! ## Events and chunks that wait in the input (R175, R177) -/

theorem run_succ_of_step {M : Host.Core} {s t : M.State} (k : Nat) (h : M.step s = .next t) :
    M.run (k + 1) s = M.run k t := by
  simp only [Host.Core.run, h]

theorem run_succ_of_next {s t : State} (k : Nat) (h : step s = .next t) :
    Sys2Proof.core.run (k + 1) s = Sys2Proof.core.run k t :=
  run_succ_of_step (M := Sys2Proof.core) k h

/-- RX neither reads nor writes what waits in the input. -/
theorem runRx_input (b : Byte) (now : Nat) (s : State) (l : List Request) :
    runRx b now { s with input := l } = { runRx b now s with input := l } :=
  (unread_withHistory [] [] l).runRx b now s

theorem step_rx {s : State} {b : Byte} {bytes : List Byte} {now : Nat} {rest : List Request}
    (h : s.input = ⟨.rx now, b :: bytes⟩ :: rest) :
    step s = .next { runRx b now s with input := remaining ⟨.rx now, b :: bytes⟩ ++ rest } := by
  rw [step_ok (i := .rx b now) h rfl, ← runRx_input]
  rfl

theorem step_reset {s : State} {bytes : List Byte} {rest : List Request} (h : s.input = ⟨.reset, bytes⟩ :: rest) :
    step s = .next (runReset { s with input := rest }) := by
  rw [step_ok (i := .reset) h rfl]
  rfl

/-- The two events of the interface (R175). -/
theorem isEvent_cases {r : Request} (h : isEvent r = true) :
    (∃ now b, r = ⟨.rx now, [b]⟩) ∨ r = ⟨.reset, []⟩ := by
  obtain ⟨level, bytes⟩ := r
  cases level with
  | rx now =>
    obtain ⟨b, rfl⟩ := List.length_eq_one_iff.1 (beq_iff_eq.1 h)
    exact .inl ⟨now, b, rfl⟩
  | reset => exact .inr (congrArg _ (List.isEmpty_iff.1 h))
  | _ => cases h

/-- A step takes the event in front, if there is one. -/
theorem step_of_eventsOnly {s : State} (h : EventsOnly s) : ∃ t, step s = .next t ∧ t.input = s.input.tail := by
  cases hs : s.input with
  | nil => exact ⟨s, step_nil hs, hs⟩
  | cons r rest =>
    rcases isEvent_cases (h r (by simp [hs])) with ⟨now, b, rfl⟩ | rfl
    · exact ⟨_, step_rx hs, rfl⟩
    · exact ⟨_, step_reset hs, rfl⟩

/-- Settles O56, by induction on the number of steps. -/
theorem eventsAreNeverRefused : Obligations.EventsAreNeverRefused := by
  intro k
  induction k with
  | zero => exact fun s h => ⟨s, rfl, h, rfl⟩
  | succ k ih =>
    intro s h
    obtain ⟨u, hstep, htail⟩ := step_of_eventsOnly h
    have hu : EventsOnly u := fun r hr => h r (List.mem_of_mem_tail (htail ▸ hr))
    obtain ⟨t, hrun, ht, hinput⟩ := ih u hu
    refine ⟨t, (run_succ_of_next k hstep).trans hrun, ht, ?_⟩
    rw [hinput, htail, List.drop_tail]

/-- Settles O60, by induction on the chunk. -/
theorem chunkIsDeliveredByteByByte : Obligations.ChunkIsDeliveredByteByByte := by
  intro s chunk now rest hne hinput
  induction chunk generalizing s with
  | nil => exact absurd rfl hne
  | cons b bytes ih =>
    rw [List.length_cons, run_succ_of_next _ (step_rx hinput)]
    have hfeed : feedBytes now (b :: bytes) { s with input := rest } =
        feedBytes now bytes { runRx b now s with input := rest } := by
      rw [← runRx_input]
      rfl
    rw [hfeed]
    cases bytes with
    | nil => rfl
    | cons b' bytes =>
      exact ih { runRx b now s with input := ⟨.rx now, b' :: bytes⟩ :: rest } (List.cons_ne_nil _ _) rfl

/-! ## The stages after the framer do not see RXBUF and SKIP (R178) -/

/-- The state with another content of RXBUF and of SKIP. -/
def withBuffer (buf : List Byte) (k : Bool) (s : State) : State := (s.setRxbuf buf).setSkip k

section
variable (buf : List Byte) (k : Bool) (s : State)

theorem storeEntry_withBuffer (p : Pgn) (src : Byte) (e : FastPacketState) :
    storeEntry p src e (withBuffer buf k s) = withBuffer buf k (storeEntry p src e s) := by
  rcases storeEntry_cases p src e s with ⟨hc, h⟩ | ⟨hc, h⟩ <;> rw [h]
  · exact storeEntry_of_complete src _ hc
  · exact storeEntry_of_incomplete src _ hc

theorem runFpFirst_withBuffer (seq : BitVec 3) (now : Nat) :
    runFpFirst seq now (withBuffer buf k s) = withBuffer buf k (runFpFirst seq now s) := by
  rcases runFpFirst_cases seq now s with ⟨hlen, h⟩ | ⟨hlen, hadm, h⟩ | ⟨hlen, hadm, h⟩ <;> rw [h]
  · exact runFpFirst_of_short seq now hlen
  · exact runFpFirst_of_not_admits seq hlen hadm
  · rw [← storeEntry_withBuffer]
    exact runFpFirst_of_admits seq hlen hadm

theorem runFpNext_withBuffer (seq : BitVec 3) (fc : BitVec 5) :
    runFpNext seq fc (withBuffer buf k s) = withBuffer buf k (runFpNext seq fc s) := by
  rcases runFpNext_cases seq fc s with ⟨hget, h⟩ | ⟨e, hget, ⟨hseq, h⟩ | ⟨hseq, hfc, h⟩ | ⟨hseq, hfc, h⟩⟩ <;> rw [h]
  · exact runFpNext_of_none seq fc hget
  · exact runFpNext_of_seq_ne fc hget hseq
  · exact runFpNext_of_present hget hseq hfc
  · rw [← storeEntry_withBuffer]
    exact runFpNext_of_absent hget hseq hfc

theorem reassemble_withBuffer (now : Nat) :
    reassemble now (withBuffer buf k s) = withBuffer buf k (reassemble now s) := by
  have hdata : (withBuffer buf k s).cf.data = s.cf.data := rfl
  unfold reassemble
  rw [hdata]
  cases controlOf s.cf.data with
  | none => rfl
  | some ctl =>
    simp only [runFpFirst_withBuffer, runFpNext_withBuffer]
    split <;> rfl

theorem routeFrame_withBuffer (now : Nat) :
    routeFrame now (withBuffer buf k s) = withBuffer buf k (routeFrame now s) := by
  rcases routeFrame_cases now s with ⟨hfiltered, h⟩ | ⟨hallowed, hsingle, h⟩ | ⟨hallowed, hfast, h⟩ <;> rw [h]
  · exact routeFrame_of_filtered now hfiltered
  · exact routeFrame_of_single now hallowed hsingle
  · rw [← reassemble_withBuffer]
    exact routeFrame_of_fast now hallowed hfast

theorem process_withBuffer (body : List Byte) (now : Nat) :
    process body now (withBuffer buf k s) = withBuffer buf k (process body now s) := by
  rcases process_cases body now s with ⟨code, hd, h⟩ | ⟨cf, hd, h⟩ <;> rw [h]
  · exact process_of_dropped now _ hd
  · have hroute := routeFrame_withBuffer buf k (s.setCf cf) now
    exact (process_of_ok now _ hd).trans (congrArg State.clearCf hroute)

end

theorem process_pushBytes (body chunk : List Byte) (now : Nat) (s : State) :
    process body now (s.pushBytes chunk) = (process body now s).pushBytes chunk := by
  have hpush : ∀ u : State, u.pushBytes chunk = withBuffer (u.rxbuf ++ chunk) u.skip u := fun _ => rfl
  rw [hpush, hpush, process_withBuffer, process_rxbuf, process_skip]

/-! ## The framer and bytes that come later (R91, R96) -/

theorem separatorReady_congr {s t : State} (hrxbuf : t.rxbuf = s.rxbuf) (hskip : t.skip = s.skip) :
    t.separatorReady = s.separatorReady := by
  rw [State.separatorReady, hrxbuf, hskip, State.separatorReady]

theorem skipIfReady_of_not_ready {s : State} (h : s.separatorReady = false) : skipIfReady s = s := by
  rw [skipIfReady, h]
  rfl

theorem skipIfReady_of_ready {s : State} (h : s.separatorReady = true) : skipIfReady s = runSkip s :=
  if_pos h

theorem skipIfReady_idem (s : State) : skipIfReady (skipIfReady s) = skipIfReady s := by
  cases h : s.separatorReady with
  | false => rw [skipIfReady_of_not_ready h, skipIfReady_of_not_ready h]
  | true =>
    rw [skipIfReady_of_ready h]
    exact skipIfReady_of_not_skip rfl

/-- A separator that is there is discarded before later bytes arrive or after, with the same outcome. -/
theorem skipIfReady_pushBytes (s : State) (chunk : List Byte) :
    skipIfReady ((skipIfReady s).pushBytes chunk) = skipIfReady (s.pushBytes chunk) := by
  cases h : s.separatorReady with
  | false => rw [skipIfReady_of_not_ready h]
  | true =>
    obtain ⟨hskip, hlen⟩ := (separatorReady_iff s).1 h
    have hready : (s.pushBytes chunk).separatorReady = true :=
      (separatorReady_iff _).2 ⟨hskip, by simp; omega⟩
    have hdrop : (s.rxbuf ++ chunk).drop 1 = s.rxbuf.drop 1 ++ chunk := List.drop_append_of_le_length hlen
    rw [skipIfReady_of_ready h, skipIfReady_of_ready hready, skipIfReady_of_not_skip rfl, runSkip, runSkip,
      State.pushBytes_rxbuf, hdrop]
    rfl

theorem process_skipIfReady (body : List Byte) (now : Nat) (s : State) :
    process body now (skipIfReady s) = skipIfReady (process body now s) := by
  have hsame := separatorReady_congr (process_rxbuf body now s) (process_skip body now s)
  cases h : s.separatorReady with
  | false => rw [skipIfReady_of_not_ready h, skipIfReady_of_not_ready (hsame.trans h)]
  | true =>
    rw [skipIfReady_of_ready h, skipIfReady_of_ready (hsame.trans h), runSkip, runSkip, process_rxbuf]
    exact process_withBuffer _ _ s body now

/-- What a framer does before it looks for a frame: in FIXED mode a separator that is there goes (R96). -/
def absorbSeparator (s : State) : State :=
  match s.cfg.mode with
  | .delim => s
  | .fixed => skipIfReady s

theorem absorbSeparator_of_delim {s : State} (hm : s.cfg.mode = .delim) : absorbSeparator s = s := by
  rw [absorbSeparator, hm]

theorem absorbSeparator_of_fixed {s : State} (hm : s.cfg.mode = .fixed) : absorbSeparator s = skipIfReady s := by
  rw [absorbSeparator, hm]

theorem runFixed_skipIfReady (s : State) : runFixed (skipIfReady s) = runFixed s := by
  rw [runFixed, skipIfReady_idem, runFixed]

theorem runFramer_absorbSeparator (s : State) : runFramer (absorbSeparator s) = runFramer s := by
  cases hm : s.cfg.mode with
  | delim => rw [absorbSeparator_of_delim hm]
  | fixed =>
    have hm' : (skipIfReady s).cfg.mode = .fixed := (framerFrame_skipIfReady s).cfg ▸ hm
    rw [absorbSeparator_of_fixed hm, (framer_of_fixed hm').2, (framer_of_fixed hm).2, runFixed_skipIfReady]

theorem process_absorbSeparator (body : List Byte) (now : Nat) (s : State) :
    process body now (absorbSeparator s) = absorbSeparator (process body now s) := by
  unfold absorbSeparator
  rw [process_cfg]
  cases s.cfg.mode with
  | delim => rfl
  | fixed => exact process_skipIfReady body now s

/-- Bytes in front of the first `0xAA` are discarded whatever follows (R91). -/
theorem cutDelim_append {pre : List Byte} (h : 0xAA ∉ pre) (buf : List Byte) : cutDelim (pre ++ buf) = cutDelim buf := by
  have hdrop : (pre ++ buf).dropWhile (· != startMarker) = buf.dropWhile (· != startMarker) :=
    List.dropWhile_append_of_pos (bne_of_not_mem h)
  unfold cutDelim
  rw [hdrop]

theorem runDelim_setRxbuf_congr {buf buf' : List Byte} (s : State) (h : cutDelim buf = cutDelim buf') :
    runDelim (s.setRxbuf buf) = runDelim (s.setRxbuf buf') := by
  unfold runDelim
  rw [State.setRxbuf_rxbuf, State.setRxbuf_rxbuf, h]
  rfl

/-- What FRM.DELIM discarded or kept while it waits makes no difference to what it does with later bytes. -/
theorem runDelim_pushBytes_of_waits {s t : State} (chunk : List Byte) (h : runDelim s = (.needMoreData, t)) :
    runDelim (s.pushBytes chunk) = runDelim (t.pushBytes chunk) := by
  rcases runDelim_cases s with ⟨hstart, e⟩ | ⟨pre, mid, hbuf, hpre, -, e⟩ | ⟨_, _, _, -, -, -, ⟨_, -, e⟩ | ⟨-, e⟩⟩ <;>
    rw [e] at h <;> cases h
  · exact runDelim_setRxbuf_congr s (cutDelim_append hstart chunk)
  · refine runDelim_setRxbuf_congr s ?_
    rw [hbuf, List.append_assoc, cutDelim_append hpre]
    rfl

/-- What FRM.DELIM cuts does not depend on the bytes behind it; they stay in RXBUF. -/
theorem runDelim_pushBytes_of_cut {s : State} (chunk : List Byte) (h : (runDelim s).1 ≠ .needMoreData) :
    runDelim (s.pushBytes chunk) = ((runDelim s).1, (runDelim s).2.pushBytes chunk) := by
  rcases runDelim_cases s with ⟨-, e⟩ | ⟨_, _, -, -, -, e⟩ | ⟨pre, mid, post, hbuf, hpre, hmid, hcheck⟩
  · exact absurd (by rw [e]) h
  · exact absurd (by rw [e]) h
  · have hcut : cutDelim (s.pushBytes chunk).rxbuf = (some (0xAA :: mid ++ [0x55]), post ++ chunk) := by
      rw [← cutDelim_found hpre hmid, State.pushBytes_rxbuf, hbuf]
      simp
    rcases hcheck with ⟨code, hcode, e⟩ | ⟨hframe, e⟩ <;> rw [e]
    · exact runDelim_of_dropped hcut hcode
    · exact runDelim_of_frame hcut hframe

theorem runFixed_pushBytes_skipIfReady (s : State) (chunk : List Byte) :
    runFixed ((skipIfReady s).pushBytes chunk) = runFixed (s.pushBytes chunk) := by
  rw [← runFixed_skipIfReady, skipIfReady_pushBytes, runFixed_skipIfReady]

/-- A separator that FRM.FIXED discarded while it waits would have gone with the next bytes. -/
theorem runFixed_pushBytes_of_waits {s t : State} (chunk : List Byte) (h : runFixed s = (.needMoreData, t)) :
    runFixed (s.pushBytes chunk) = runFixed (t.pushBytes chunk) := by
  rcases runFixed_cases s with ⟨-, e, -, -⟩ | ⟨-, -, e⟩ | ⟨-, -, e⟩ <;> rw [e] at h <;> cases h
  · rfl
  · exact (runFixed_pushBytes_skipIfReady s chunk).symm

/-- What FRM.FIXED cuts does not depend on the bytes behind it; the first of them may be the separator. -/
theorem runFixed_pushBytes_of_cut {s : State} (chunk : List Byte) (h : (runFixed s).1 ≠ .needMoreData) :
    runFixed (s.pushBytes chunk) = ((runFixed s).1, skipIfReady ((runFixed s).2.pushBytes chunk)) := by
  rcases runFixed_cases s with ⟨-, e, -, -⟩ | ⟨-, -, e⟩ | ⟨hskip, hlen, e⟩
  · exact absurd (by rw [e]) h
  · exact absurd (by rw [e]) h
  · have hsplit : ((skipIfReady s).pushBytes chunk).rxbuf =
        (skipIfReady s).rxbuf.take 13 ++ ((skipIfReady s).rxbuf.drop 13 ++ chunk) := by
      rw [← List.append_assoc, List.take_append_drop]
      rfl
    rw [e, ← runFixed_pushBytes_skipIfReady,
      runFixed_of_frame (s := (skipIfReady s).pushBytes chunk) hskip (List.length_take_of_le hlen) hsplit,
      skipIfReady_pushBytes]
    rfl

theorem runFramer_pushBytes_of_waits {s t : State} (chunk : List Byte) (h : runFramer s = (.needMoreData, t)) :
    runFramer (s.pushBytes chunk) = runFramer (t.pushBytes chunk) := by
  have hcfg : t.cfg = s.cfg := by
    have f := framerFrame_runFramer s
    rw [h] at f
    exact f.cfg
  cases hm : s.cfg.mode with
  | delim =>
    rw [(framer_of_delim hm).2] at h
    rw [(framer_of_delim (s := s.pushBytes chunk) hm).2, (framer_of_delim (s := t.pushBytes chunk) (hcfg ▸ hm)).2]
    exact runDelim_pushBytes_of_waits chunk h
  | fixed =>
    rw [(framer_of_fixed hm).2] at h
    rw [(framer_of_fixed (s := s.pushBytes chunk) hm).2, (framer_of_fixed (s := t.pushBytes chunk) (hcfg ▸ hm)).2]
    exact runFixed_pushBytes_of_waits chunk h

theorem runFramer_pushBytes_of_cut {s t : State} {r : FrmResult} (chunk : List Byte) (h : runFramer s = (r, t))
    (hr : r ≠ .needMoreData) : runFramer (s.pushBytes chunk) = (r, absorbSeparator (t.pushBytes chunk)) := by
  have hcfg : t.cfg = s.cfg := by
    have f := framerFrame_runFramer s
    rw [h] at f
    exact f.cfg
  cases hm : s.cfg.mode with
  | delim =>
    rw [(framer_of_delim hm).2] at h
    rw [(framer_of_delim (s := s.pushBytes chunk) hm).2, runDelim_pushBytes_of_cut chunk (by rwa [h]), h,
      absorbSeparator_of_delim (s := t.pushBytes chunk) (hcfg ▸ hm)]
  | fixed =>
    rw [(framer_of_fixed hm).2] at h
    rw [(framer_of_fixed (s := s.pushBytes chunk) hm).2, runFixed_pushBytes_of_cut chunk (by rwa [h]), h,
      absorbSeparator_of_fixed (s := t.pushBytes chunk) (hcfg ▸ hm)]

/-! ## The loop on what stands in RXBUF, and chunks one after another (R176, R177) -/

/-- The loop of RX to its exit, on what stands in RXBUF. -/
def drain (now : Nat) (s : State) : State := rxLoop (s.rxbuf.length + 1) now s

theorem runChunk_eq_drain (chunk : List Byte) (now : Nat) (s : State) :
    runChunk chunk now s = drain now (s.pushBytes chunk) := rfl

section
variable {s t : State} (now : Nat)

theorem drain_of_needMoreData (h : runFramer s = (.needMoreData, t)) : drain now s = t := by
  rw [drain, rxLoop_of_needMoreData now _ (by rw [h]), h]

theorem length_of_cut {r : FrmResult} (h : runFramer s = (r, t)) (hr : r ≠ .needMoreData) :
    t.rxbuf.length + 2 ≤ s.rxbuf.length := by
  have hc := runFramer_consumes (s := s) (by rwa [h])
  rwa [h] at hc

theorem drain_of_dropped {code : DropCode} (h : runFramer s = (.dropped code, t)) : drain now s = drain now t := by
  have hlen := length_of_cut h (by simp)
  rw [drain, rxLoop, h]
  exact rxLoop_passes now (by omega) (by omega)

theorem drain_of_frame {body : List Byte} (h : runFramer s = (.frame body, t)) :
    drain now s = drain now (process body now t) := by
  have hlen := length_of_cut h (by simp)
  rw [← process_rxbuf body now t] at hlen
  rw [drain, rxLoop, h]
  exact rxLoop_passes now (by omega) (by omega)

/-- The loop sees the state through the framer alone. -/
theorem drain_congr (h : runFramer s = runFramer t) : drain now s = drain now t := by
  rcases ht : runFramer t with ⟨r, u⟩
  rw [ht] at h
  cases r with
  | needMoreData => rw [drain_of_needMoreData now h, drain_of_needMoreData now ht]
  | dropped code => rw [drain_of_dropped now h, drain_of_dropped now ht]
  | frame body => rw [drain_of_frame now h, drain_of_frame now ht]

theorem drain_absorbSeparator (s : State) : drain now (absorbSeparator s) = drain now s :=
  drain_congr now (runFramer_absorbSeparator s)

/-- Bytes that are there before the loop runs, or come after its exit: the same outcome. By induction on RXBUF, of which
every pass takes some. -/
theorem drain_pushBytes (chunk : List Byte) (s : State) :
    drain now (s.pushBytes chunk) = drain now ((drain now s).pushBytes chunk) := by
  induction hn : s.rxbuf.length using Nat.strong_induction_on generalizing s with
  | _ n ih =>
    subst hn
    rcases hr : runFramer s with ⟨r, t⟩
    cases r with
    | needMoreData =>
      rw [drain_of_needMoreData now hr]
      exact drain_congr now (runFramer_pushBytes_of_waits chunk hr)
    | dropped code =>
      have hlen := length_of_cut hr (by simp)
      rw [drain_of_dropped now hr, drain_of_dropped now (runFramer_pushBytes_of_cut chunk hr (by simp)),
        drain_absorbSeparator]
      exact ih _ (by omega) t rfl
    | frame body =>
      have hlen := length_of_cut hr (by simp)
      rw [drain_of_frame now hr, drain_of_frame now (runFramer_pushBytes_of_cut chunk hr (by simp)),
        process_absorbSeparator, process_pushBytes, drain_absorbSeparator]
      exact ih _ (by rw [process_rxbuf]; omega) (process body now t) rfl

end

/-- Two chunks one after another, or both at once, from any state (R177). -/
theorem runChunk_append (chunk chunk' : List Byte) (now : Nat) (s : State) :
    runChunk (chunk ++ chunk') now s = runChunk chunk' now (runChunk chunk now s) := by
  have hpush : s.pushBytes (chunk ++ chunk') = (s.pushBytes chunk).pushBytes chunk' := by
    simp only [State.pushBytes, List.append_assoc]
  rw [runChunk_eq_drain, runChunk_eq_drain, runChunk_eq_drain, hpush, drain_pushBytes]

/-- From a state whose framer waits, a chunk byte by byte is the chunk at once. After each RX the framer waits again. -/
theorem feedBytes_eq_runChunk (now : Nat) (chunk : List Byte) :
    ∀ s : State, runFramer s = (.needMoreData, s) → feedBytes now chunk s = .next (runChunk chunk now s) := by
  induction chunk with
  | nil =>
    intro s hidle
    have hpush : s.pushBytes [] = s := by rw [State.pushBytes, List.append_nil]
    rw [runChunk_eq_drain, hpush, drain_of_needMoreData now hidle]
    rfl
  | cons b rest ih =>
    intro s _
    calc feedBytes now (b :: rest) s
      _ = feedBytes now rest (runRx b now s) := rfl
      _ = .next (runChunk rest now (runRx b now s)) := ih _ (runFramer_runRx b now s)
      _ = .next (runChunk (b :: rest) now s) := congrArg _ (runChunk_append [b] rest now s).symm

/-- Settles O45. -/
theorem chunkingIsInvisible : Obligations.ChunkingIsInvisible :=
  fun s chunk now hrx hskip => feedBytes_eq_runChunk now chunk s (runFramer_idle hrx hskip)

/-! ## RX as its operations in order (R176, R178, R146) -/

/-- No operation reads `ret` (log 5). -/
theorem unread_withRet (r : Ret) : Unread fun s => withRet s r where
  cfg _ := rfl
  rxbuf _ := rfl
  skip _ := rfl
  fpt _ := rfl
  thr _ := rfl
  cf _ := rfl
  setRxbuf _ _ := rfl
  setSkip _ _ := rfl
  fptSet _ _ _ := rfl
  fptClear _ _ := rfl
  thrSet _ _ _ := rfl
  setCf _ _ := rfl
  emit _ _ _ _ := rfl
  dropFrame _ _ _ := rfl

theorem retOfFrm_eq_frame {r : FrmResult} {body : List Byte} (h : retOfFrm r = .frame body) : r = .frame body := by
  cases r <;> cases h
  rfl

theorem retOfFrm_ne_frame {r : FrmResult} {body : List Byte}
    (h : retOfFrm r = .needMoreData ∨ ∃ c, retOfFrm r = .dropped c) : r ≠ .frame body := by
  rintro rfl
  rcases h with h | ⟨c, h⟩ <;> cases h

section
variable {s t u v : State} {b : Byte} {now : Nat} {body : List Byte}

/-- The framer keeps `ret`, so its own result taken off again is what RX goes on with. -/
theorem withRet_framer (s : State) (r : Ret) : withRet (withRet (runFramer s).2 r) s.ret = (runFramer s).2 := by
  rw [← (framerFrame_runFramer s).ret]
  rfl

/-- FRM in RX: with no frame cut RX is over, and a frame goes to PROCESS. -/
theorem runRx_of_framer (hrx : RxbufShape s) (h : exec (framerOf s) (s.pushBytes [b]) = .next t) :
    t.cfg = s.cfg ∧
    ((t.ret = .needMoreData ∨ ∃ c, t.ret = .dropped c) → runRx b now s = withRet t s.ret) ∧
    ∀ body, t.ret = .frame body → runRx b now s = withRet (process body now t) s.ret := by
  have hexec : exec (framerOf s) (s.pushBytes [b]) = .next _ := exec_framerOf (s.pushBytes [b])
  rw [hexec] at h
  cases h
  have hret : ∀ r, withRet (withRet (runFramer (s.pushBytes [b])).2 r) s.ret = (runFramer (s.pushBytes [b])).2 :=
    withRet_framer (s.pushBytes [b])
  refine ⟨(framerFrame_runFramer (s.pushBytes [b])).cfg, fun hends => ?_, fun body hframe => ?_⟩
  · rw [hret, runRx_eq b now hrx]
    rcases hr : runFramer (s.pushBytes [b]) with ⟨r, w⟩
    rw [hr] at hends
    cases r with
    | needMoreData => rfl
    | dropped code => rfl
    | frame body => exact absurd rfl (retOfFrm_ne_frame hends)
  · have hcut := retOfFrm_eq_frame hframe
    rw [← (unread_withRet s.ret).process, hret, runRx_eq b now hrx]
    rcases hr : runFramer (s.pushBytes [b]) with ⟨r, w⟩
    rw [hr] at hcut
    cases hcut
    rfl

/-- DEC in PROCESS: a drop ends it, and a decoded frame is routed, after which the registers are at rest. -/
theorem process_of_exec_dec (r : Ret) (h : exec (.dec body) t = .next u) :
    u.cfg = t.cfg ∧
    ((∃ c, u.ret = .dropped c) → withRet (process body now t) r = withRet u r) ∧
    (u.ret = .decoded → withRet (process body now t) r = withRet (routeFrame now u).clearCf r) := by
  have hne : body ≠ [] := by
    rintro rfl
    cases h
  rcases hd : decodeBody body with cf | code
  · rw [exec_dec_of_ok t hne hd] at h
    cases h
    refine ⟨rfl, nofun, fun _ => ?_⟩
    rw [process_of_ok now t hd, (unread_withRet .decoded).routeFrame]
    rfl
  · rw [exec_dec_of_dropped t hne hd] at h
    cases h
    refine ⟨rfl, fun _ => ?_, nofun⟩
    rw [process_of_dropped now t hd]
    rfl

/-- FLT by itself: its answer is the verdict that the routing takes. -/
theorem allowed_of_exec_flt {p : Pgn} {verdict : Bool} (h : exec (.flt p) u = .next v)
    (hv : v.ret = .verdict verdict) : allowed u.cfg p = verdict := by
  cases h
  exact Ret.verdict.inj hv

/-- The control byte selects between FP.FIRST and FP.NEXT (R66, R146). -/
theorem exec_of_control {rest : List Byte} {ctl : Byte} (hdata : u.cf.data = rest ++ [ctl]) :
    exec (if ctl.toNat % 32 = 0 then .fpFirst (BitVec.ofNat 3 (ctl.toNat / 32)) now
      else .fpNext (BitVec.ofNat 3 (ctl.toNat / 32)) (BitVec.ofNat 5 (ctl.toNat % 32))) u =
      .next (reassemble now u) := by
  have hctl : controlOf u.cf.data = some ctl := hdata ▸ controlOf_append rest ctl
  have hrun : reassemble now u = if controlFc ctl = 0 then runFpFirst (controlSeq ctl) now u
      else runFpNext (controlSeq ctl) (controlFc ctl) u := by
    simp only [reassemble, hctl]
  rw [hrun, ← controlSeq_eq, ← controlFc_eq]
  by_cases h : controlFc ctl = 0
  · rw [if_pos h, if_pos ((controlFc_eq_zero_iff ctl).1 h)]
    exact exec_of_effect (.fpFirst _ now u)
  · rw [if_neg h, if_neg (mt (controlFc_eq_zero_iff ctl).2 h)]
    exact exec_of_effect (.fpNext _ _ u)

theorem reassemble_of_nil (hdata : u.cf.data = []) : reassemble now u = u.dropFrame .xFpEmpty (some u.cf.pgn) := by
  have hctl : controlOf u.cf.data = none := by rw [hdata]; rfl
  simp only [reassemble, hctl]

end

/-- Settles O33, one stage after the other: framer, DEC, FLT, and the operation that the routing selects. -/
theorem rxRunsItsOperationsInOrder : Obligations.RxRunsItsOperationsInOrder := by
  intro s t b now hinv hframer
  obtain ⟨hrx, -⟩ := hinv
  obtain ⟨htcfg, hends, hframe⟩ := runRx_of_framer (now := now) hrx hframer
  refine ⟨fun hret => congrArg Host.Outcome.next (hends hret), fun body u hbody hdec => ?_⟩
  obtain ⟨hucfg, hdropped, hdecoded⟩ := process_of_exec_dec (now := now) s.ret hdec
  refine ⟨fun hdrop => ?dropped, fun v hok hflt => ?decoded⟩
  case dropped => exact congrArg Host.Outcome.next ((hframe body hbody).trans (hdropped hdrop))
  have finish : ∀ x, routeFrame now u = x → exec (.rx b now) s = .next { x with cf := .atRest, ret := s.ret } := by
    rintro _ rfl
    exact congrArg Host.Outcome.next ((hframe body hbody).trans (hdecoded hok))
  have hcfg : u.cfg = s.cfg := hucfg.trans htcfg
  rw [← hcfg]
  refine ⟨fun hv => ?filtered, fun hv hsingle x hx => ?single, fun hv hfast => ⟨fun hdata => ?empty, ?control⟩⟩
  case filtered => exact finish _ (routeFrame_of_filtered now (allowed_of_exec_flt hflt hv))
  case single =>
    cases hx
    exact finish _ (routeFrame_of_single now (allowed_of_exec_flt hflt hv) hsingle)
  case empty =>
    exact finish _ ((routeFrame_of_fast now (allowed_of_exec_flt hflt hv) hfast).trans (reassemble_of_nil hdata))
  case control =>
    intro rest ctl x hdata hx
    rw [exec_of_control hdata] at hx
    cases hx
    exact finish _ (routeFrame_of_fast now (allowed_of_exec_flt hflt hv) hfast)

end Sys2Proof.PipelineLaws
end


section
/-! PROOFS about the drops (spec/60_exceptions.md): which codes the source logs, read off their numbers, and what a drop
adds to the source's log. -/

namespace Sys2Proof.ExceptionLaws

open Sys2Proof.Machine

/-! ## The column `Log` and the numbers (R196) -/

/-- The column `Log` and the column of numbers of R196 agree: the logged codes are those numbered 1, 2 and 3. -/
theorem logged_iff_number_le_three (c : DropCode) : c.logged = true ↔ c.number ≤ 3 := by
  cases c <;> decide

/-! ## What a drop adds to the source's log (R198) -/

theorem sourceLog_dropFrame (s : State) (code : DropCode) (info : Option Pgn) :
    (s.dropFrame code info).sourceLog = s.sourceLog ++ if code.logged then [⟨code, info⟩] else [] := by
  unfold State.sourceLog
  rw [State.dropFrame_diag, List.filter_append, List.filter_singleton, Bool.cond_eq_ite]

/-- Settles O55: the numbers are read off the list, and the log through `logged_iff_number_le_three`. -/
theorem dropCodesAreNumberedAsListed : Obligations.DropCodesAreNumberedAsListed := by
  refine ⟨rfl, fun s c info => ?_⟩
  rw [sourceLog_dropFrame]
  simp only [logged_iff_number_le_three]

end Sys2Proof.ExceptionLaws
end

section
/-! PROOFS about reset and hazards (spec/70_reset_and_hazards.md): RESET and construction, marker bytes where a DELIM
frame does not expect them, and an entry that announces more bytes than 32 chunks can hold. -/

namespace Sys2Proof.HazardLaws

open Sys2Proof.Machine Sys2Proof.Safety Sys2Proof.StateLaws Sys2Proof.MemoryLaws Sys2Proof.EncodingLaws
open Sys2Proof.FramerLaws Sys2Proof.ReassemblerLaws

/-! ## Marker bytes inside a DELIM frame (R241) -/

/-- The length check of a candidate that has a type byte (R92): a runt has none. -/
theorem delimCheck_cons (ty : Byte) (rest : List Byte) :
    delimCheck (0xAA :: (ty :: rest) ++ [0x55]) =
      if rest.length < 4 then .dropped .xShort
      else if 8 < dataLength ty then .dropped .xDlen
      else if rest.length < 4 + dataLength ty then .dropped .xShort
      else .frame (ty :: rest) := by
  have hlen : (0xAA :: (ty :: rest) ++ [0x55] : List Byte).length = rest.length + 3 := by simp
  have htype : (0xAA :: (ty :: rest) ++ [0x55] : List Byte).getD 1 0 = ty := rfl
  have hbody : ((0xAA :: (ty :: rest) ++ [0x55] : List Byte).drop 1).dropLast = ty :: rest :=
    List.dropLast_concat
  have hshort : rest.length + 3 < 7 ↔ rest.length < 4 := by omega
  have hdata : rest.length + 3 < 7 + dataLength ty ↔ rest.length < 4 + dataLength ty := by omega
  rw [delimCheck, hlen, htype, hbody, if_neg (by omega)]
  simp only [hshort, hdata]

/-- A proper prefix of a body is never long enough: its own type byte, when it has one, announces the whole body. -/
theorem delimCheck_of_cut_body {f : Wire} {a c : List Byte} {x : Byte} (hlen : f.data.length ≤ 8)
    (hbody : f.body = a ++ x :: c) :
    delimCheck (0xAA :: a ++ [0x55]) = .dropped (if a = [] then .xRunt else .xShort) := by
  cases a with
  | nil => rfl
  | cons ty rest =>
    obtain ⟨hty, -⟩ := List.cons.inj hbody
    have hn : dataLength ty = f.data.length := hty ▸ f.dataLength_typeByte hlen
    have hcut : rest.length < 4 + dataLength ty := by
      have hlength := congrArg List.length hbody
      simp only [f.length_body, List.length_append, List.length_cons] at hlength
      omega
    rw [delimCheck_cons, if_neg (List.cons_ne_nil ty rest), if_neg (show ¬ 8 < dataLength ty by omega), if_pos hcut,
      ite_self]

/-- Settles O8: the candidate ends at the first `0x55`, and what it holds of the body is cut short. -/
theorem embeddedEndMarkerLosesTheFrame : Obligations.EmbeddedEndMarkerLosesTheFrame := by
  intro s f a c post hm hlen hbody ha hbuf
  have hsplit : s.rxbuf = [] ++ 0xAA :: (a ++ 0x55 :: (c ++ 0x55 :: post)) := by
    simp [hbuf, Wire.delim, hbody, startMarker, endMarker]
  have hcut := (congrArg cutDelim hsplit).trans (cutDelim_found List.not_mem_nil ha)
  rw [exec_frmDelim_of_delim hm, runDelim_of_dropped hcut (delimCheck_of_cut_body hlen hbody)]
  rfl

/-- A start marker that stands where the type byte should announces 10 data bytes, which is reserved (R70). -/
theorem delimCheck_of_startMarker_type {rest : List Byte} (h : 4 ≤ rest.length) :
    delimCheck (0xAA :: (0xAA :: rest) ++ [0x55]) = .dropped .xDlen := by
  rw [delimCheck_cons, if_neg (Nat.not_lt.2 h), if_pos (by decide)]

/-- Settles O9: the candidate is the whole of RXBUF, and the length check drops it. -/
theorem strayStartMarkerLosesTheFrame : Obligations.StrayStartMarkerLosesTheFrame := by
  intro s f trailing now hm hbuf hend
  have hsame : s.setRxbuf (0xAA :: 0xAA :: (f.body ++ trailing)) = s := by
    rw [← hbuf]
    rfl
  have hcheck := delimCheck_of_startMarker_type (rest := f.body ++ trailing)
    (by rw [List.length_append, f.length_body]; omega)
  have hmid : 0x55 ∉ 0xAA :: (f.body ++ trailing) := List.not_mem_cons_of_ne_of_not_mem (by decide) hend
  rcases runRx_endMarker (s := s) now hm hmid with ⟨code, hcode, hrun⟩ | ⟨hframe, -⟩
  · rw [hcheck] at hcode
    cases hcode
    rw [hsame] at hrun
    exact congrArg Host.Outcome.next hrun
  · rw [hcheck] at hframe
    cases hframe

/-! ## Sequences that never complete (R245) -/

/-- 32 chunks hold at most 223 bytes, so a chunk more does not complete an entry that announces more (R28 item 7). -/
theorem addChunk_incomplete_of_oversized {e : FastPacketState} {fc : BitVec 5} {chunk : List Byte} (he : EntryInv e)
    (hplen : 223 < e.plen.toNat) (habsent : e.frames.get fc.toNat = none) (hchunk : chunk.length ≤ 7) :
    (addChunk e fc chunk).stored.toNat < (addChunk e fc chunk).plen.toNat := by
  obtain ⟨hwf, hkeys, hsum, -, hlengths⟩ := entryInv_addChunk he habsent hchunk
  calc (addChunk e fc chunk).stored.toNat = ((addChunk e fc chunk).frames.map fun x => x.2.length).sum := hsum
    _ ≤ 223 := sum_lengths_le hwf hkeys hlengths
    _ < (addChunk e fc chunk).plen.toNat := hplen

/-- Settles O31: a drop leaves the entry as it was, and a store leaves it incomplete. -/
theorem oversizedSequenceNeverCompletes : Obligations.OversizedSequenceNeverCompletes := by
  intro s t seq fc e hinv hget hplen hx
  cases hx
  obtain ⟨-, -, hstores⟩ := hinv
  obtain ⟨-, -, hdata, -⟩ := id hstores
  rcases runFpNext_cases seq fc s with ⟨hnone, -⟩ | ⟨e', hget', hcases⟩
  · cases hnone.symm.trans hget
  · cases hget'.symm.trans hget
    rcases hcases with ⟨-, hrun⟩ | ⟨-, -, hrun⟩ | ⟨-, habsent, hrun⟩ <;> rw [hrun]
    · exact ⟨rfl, e, hget, rfl, rfl⟩
    · exact ⟨rfl, e, hget, rfl, rfl⟩
    · have hchunk : (nextChunk s.cf.data).length ≤ 7 := by
        rw [length_nextChunk]
        omega
      have hopen := addChunk_incomplete_of_oversized (entryInv_of_fptGet hstores hget) hplen habsent hchunk
      rw [storeEntry_of_incomplete s.cf.source s hopen]
      exact ⟨rfl, _, Table.get_set_self _ _ _, rfl, rfl⟩

/-! ## RESET (R231, R232) -/

/-- Settles O46. -/
theorem resetClearsDynamicState : Obligations.ResetClearsDynamicState :=
  fun s => exec_of_effect (.reset s)

/-- RESET is construction anew, but for the two streams and the model's own fields. -/
theorem runReset_eq_construct (s : State) :
    runReset s = { State.construct s.cfg with out := s.out, diag := s.diag, ret := s.ret, input := s.input } := rfl

/-- Settles O47. -/
theorem resetEqualsConstruction : Obligations.ResetEqualsConstruction := by
  intro s
  rw [← runReset_eq_construct]
  exact exec_of_effect (.reset s)

end Sys2Proof.HazardLaws
end

section
/-! PROOFS about the model's own choices, where the spec leaves the form open: tables are lists with strictly rising
keys (log 9), a block with nothing asked rests (log 6), a bare word of the table names a level (log 2), and the result
of an operation stands in `ret` (log 5). -/

namespace Sys2Proof.ModelChoiceLaws

open Sys2Proof.Machine Sys2Proof.Safety Sys2Proof.StateLaws Sys2Proof.PipelineLaws

/-! ## The canonical form of the tables (R40, log 9) -/

/-- The chunks of an entry that FPT holds are in canonical form. -/
theorem frames_wf_of_fptGet {s : State} {p : Pgn} {e : FastPacketState} (h : Memory.wf s) (hg : s.fptGet p = some e) :
    e.frames.wf := by
  obtain ⟨-, -, hframes⟩ := h
  exact hframes _ (Table.mem_of_get hg)

theorem memory_wf_runThrAccept {s : State} (p : Pgn) (now : Nat) (h : Memory.wf s) :
    Memory.wf (runThrAccept p now s).2 := by
  rcases runThrAccept_cases p now s with ⟨-, hr⟩ | ⟨-, hr⟩ <;> rw [hr]
  · exact memory_wf_thrSet p now h
  · exact h

theorem memory_wf_storeEntry {s : State} (p : Pgn) (src : Byte) {e : FastPacketState} (h : Memory.wf s)
    (he : e.frames.wf) : Memory.wf (storeEntry p src e s) := by
  rcases storeEntry_cases p src e s with ⟨-, hr⟩ | ⟨-, hr⟩ <;> rw [hr]
  · exact memory_wf_fptClear p h
  · exact memory_wf_fptSet p h he

theorem memory_wf_runFpFirst {s : State} (seq : BitVec 3) (now : Nat) (h : Memory.wf s) :
    Memory.wf (runFpFirst seq now s) := by
  rcases runFpFirst_cases seq now s with ⟨-, hr⟩ | ⟨-, -, hr⟩ | ⟨-, -, hr⟩ <;> rw [hr]
  · exact h
  · exact h
  · exact memory_wf_storeEntry _ _ (memory_wf_thrSet _ now h) (Table.wf_singleton _ _)

theorem memory_wf_runFpNext {s : State} (seq : BitVec 3) (fc : BitVec 5) (h : Memory.wf s) :
    Memory.wf (runFpNext seq fc s) := by
  rcases runFpNext_cases seq fc s with ⟨-, hr⟩ | ⟨e, hg, ⟨-, hr⟩ | ⟨-, -, hr⟩ | ⟨-, -, hr⟩⟩ <;> rw [hr]
  · exact h
  · exact h
  · exact h
  · exact memory_wf_storeEntry _ _ h (Table.wf_set _ _ (frames_wf_of_fptGet h hg))

theorem memory_wf_routeFrame {s : State} (now : Nat) (h : Memory.wf s) : Memory.wf (routeFrame now s) := by
  rcases routeFrame_cases now s with ⟨-, hr⟩ | ⟨-, -, hr⟩ | ⟨-, -, hr⟩ <;> rw [hr]
  · exact h
  · exact h
  · rcases reassemble_cases now s with hr | ⟨seq, hr⟩ | ⟨seq, fc, hr⟩ <;> rw [hr]
    · exact h
    · exact memory_wf_runFpFirst seq now h
    · exact memory_wf_runFpNext seq fc h

theorem memory_wf_process {s : State} (body : List Byte) (now : Nat) (h : Memory.wf s) :
    Memory.wf (process body now s) := by
  rcases process_cases body now s with ⟨code, -, hr⟩ | ⟨cf, -, hr⟩ <;> rw [hr]
  · exact h
  · exact memory_wf_routeFrame (s := s.setCf cf) now h

theorem memory_wf_runFramer {s : State} (h : Memory.wf s) : Memory.wf (runFramer s).2 :=
  have f := framerFrame_runFramer s
  memory_wf_congr f.fpt f.thr h

/-- The loop of RX goes through framer and PROCESS only, and both keep the form. -/
theorem memory_wf_runRx {s : State} (b : Byte) (now : Nat) (h : Memory.wf s) : Memory.wf (runRx b now s) :=
  rxLoop_keeps Memory.wf now (fun _ => memory_wf_runFramer) (fun body _ => memory_wf_process body now) _
    (s := s.pushBytes [b]) h

theorem memory_wf_runDec {s : State} (body : List Byte) (h : Memory.wf s) : Memory.wf (runDec body s).2 := by
  rcases runDec_cases body s with ⟨code, -, hr⟩ | ⟨cf, -, hr⟩ <;> rw [hr] <;> exact h

/-- Every operation keeps the form; `ret` and the streams are no part of it. -/
theorem effect_keeps_memory_wf {i : Instr} {s t : State} (h : Memory.wf s) (hx : Effect i s t) : Memory.wf t := by
  cases hx with
  | rx b now => exact memory_wf_runRx b now h
  | reset => exact memory_wf_runReset s
  | framer => exact memory_wf_runFramer h
  | skip => exact h
  | dec body => exact memory_wf_runDec body h
  | flt p => exact h
  | thrAccept p now => exact memory_wf_runThrAccept p now h
  | sfEmit => exact h
  | fpFirst seq now => exact memory_wf_runFpFirst seq now h
  | fpNext seq fc => exact memory_wf_runFpNext seq fc h
  | fpEmit p => exact memory_wf_fptClear p h

theorem memory_wf_passOver {s : State} (e : DecodeError) (h : Memory.wf s) : Memory.wf (passOver e s) :=
  have ⟨hfpt, hthr⟩ := passOver_tables e s
  memory_wf_congr hfpt hthr h

/-- Settles O50: a step is an operation, which keeps the form, or passes over its input. -/
theorem stepKeepsCanonicalStorage : Obligations.StepKeepsCanonicalStorage := by
  intro s t h hstep
  rcases step_cases hstep with ⟨-, rfl⟩ | ⟨r, rest, -, ⟨i, -, hx⟩ | ⟨e, -, rfl⟩⟩
  · exact h
  · exact effect_keeps_memory_wf (s := { s with input := remaining r ++ rest }) h (effect_of_exec hx)
  · exact memory_wf_passOver e h

/-! ## A block with nothing asked (R181, log 6) -/

/-- Settles O4. -/
theorem restingBlockDoesNotAct : Obligations.RestingBlockDoesNotAct :=
  fun _ => step_nil

/-! ## Bare words of the table (log 2) -/

/-- A word decodes to what its bytes select at the level that they name. -/
theorem decodeTableWord_of_level {nbits w : Nat} {l : Level} {i : Instr}
    (hl : tableLevel (bytesOfWord (nbits / 8) w) = some l) (hd : decode l (bytesOfWord (nbits / 8) w) = .ok i) :
    decodeTableWord nbits w = some i := by
  simp only [decodeTableWord, hl, hd]

/-- Settles O5: two words are whole DELIM frames, one is a FIXED frame, two are control bytes, and one has no bits. -/
theorem tableWordsDecode : Obligations.TableWordsDecode :=
  ⟨decodeTableWord_of_level (l := .delim) (by decide) rfl,
    decodeTableWord_of_level (l := .delim) (by decide) rfl,
    decodeTableWord_of_level (l := .fixed) (by decide) rfl,
    decodeTableWord_of_level (l := .control 0) (by decide) (by decide),
    decodeTableWord_of_level (l := .control 0) (by decide) (by decide),
    decodeTableWord_of_level (l := .reset) (by decide) rfl⟩

/-! ## The result of an operation (log 5) -/

section
variable {i : Instr} {s t : State}

/-- An update that commutes with every change of `ret` leaves `ret` as it is: take the change that writes back what is
there. -/
theorem ret_of_commutes {g : State → State} (hg : ∀ s r, g (withRet s r) = withRet (g s) r) (s : State) :
    (g s).ret = s.ret := by
  have h : g s = withRet (g s) s.ret := hg s s.ret
  rw [h]
  rfl

/-- An operation whose meaning commutes with every change of `ret` leaves `ret` as it was and does not read it. -/
theorem effect_withRet_of_commutes {g : State → State} (hg : ∀ s r, g (withRet s r) = withRet (g s) r) {r : Ret}
    (h : Effect i (withRet s r) (g (withRet s r))) :
    (g s).ret = s.ret ∧ Effect i (withRet s r) (withRet (g s) r) :=
  ⟨ret_of_commutes hg s, hg s r ▸ h⟩

/-- With another result in `ret`, the framer operations, DEC, FLT and THR.ACCEPT overwrite it with their own, and every
other operation passes it on. -/
theorem effect_withRet (r : Ret) (h : Effect i s t) :
    Effect i (withRet s r) t ∨ (t.ret = s.ret ∧ Effect i (withRet s r) (withRet t r)) := by
  have hu : ∀ r, Unread fun s => withRet s r := unread_withRet
  cases h with
  | framer =>
    have e := Effect.framer (withRet s r)
    rw [(hu r).framerOf, (hu r).runFramer] at e
    exact .inl e
  | dec body _ hne =>
    have e := Effect.dec body (withRet s r) hne
    rw [(hu r).runDec] at e
    exact .inl e
  | flt p => exact .inl (.flt p (withRet s r))
  | thrAccept p now =>
    have e := Effect.thrAccept p now (withRet s r)
    rw [(hu r).runThrAccept] at e
    exact .inl e
  | rx b now => exact .inr (effect_withRet_of_commutes (fun s r => (hu r).runRx b now s) (.rx b now _))
  | reset => exact .inr ⟨rfl, .reset (withRet s r)⟩
  | skip _ hready => exact .inr ⟨rfl, .skip (withRet s r) hready⟩
  | sfEmit => exact .inr ⟨rfl, .sfEmit (withRet s r)⟩
  | fpFirst seq now =>
    exact .inr (effect_withRet_of_commutes (fun s r => (hu r).runFpFirst seq now s) (.fpFirst seq now _))
  | fpNext seq fc =>
    exact .inr (effect_withRet_of_commutes (fun s r => (hu r).runFpNext seq fc s) (.fpNext seq fc _))
  | fpEmit p src _ e hg hc => exact .inr ⟨rfl, .fpEmit p src (withRet s r) e hg hc⟩

end

/-- Settles O58. -/
theorem answersAreNeverRead : Obligations.AnswersAreNeverRead :=
  fun _ _ _ r h => (effect_withRet r (effect_of_exec h)).imp exec_of_effect (.imp_right exec_of_effect)

end Sys2Proof.ModelChoiceLaws
end
